-- ==== Sys2Proof/Word.lean ====
section
/-! DEFINITION. The words of the hardware (00_scope.md R8, R9): bytes, command words and Keccak lanes.
A word of `w` bits is `BitVec w`; bit 0 is its least significant bit, `+` wraps modulo `2^w`, `~~~` complements
within the width (R9). -/

namespace Sys2Proof

/-- A byte is 8 bits (20_memory.md R61). -/
abbrev Byte := BitVec 8

/-- A command word `W` (30_encoding.md R90). -/
abbrev Word := BitVec 32

/-- A lane of the Keccak state (00_scope.md R8, `LANE_W`). -/
abbrev Lane := BitVec 64

/-- The 25 lanes; lane (x, y) is element `x + 5 * y` (00_scope.md R12, 40_keccak_f1600.md R120). -/
abbrev Lanes := Vector Lane 25

end Sys2Proof
end

