-- ==== Sys2Proof/Machine/Bytes.lean ====
section
/-! DEFINITION. Byte sequences and byte order (00_scope.md R9, R10; 20_memory.md R62): little-endian in every place
where bytes meet words. -/

namespace Sys2Proof.Machine

/-- `zeros(n)`: n bytes 0x00 (00_scope.md R9). -/
def zeros (n : Nat) : List Byte := List.replicate n 0

/-- The number `Σ s[k] · 2^(8k)`: byte 0 is the least significant (00_scope.md R10). -/
def leNat : List Byte → Nat
  | [] => 0
  | b :: s => b.toNat + 256 * leNat s

/-- The n bytes `(v >> 8k) mod 256`, k = 0, 1, … (00_scope.md R10). -/
def natBytes : Nat → Nat → List Byte
  | 0, _ => []
  | n + 1, v => BitVec.ofNat 8 v :: natBytes n (v / 256)

/-- `le_w(s)` (00_scope.md R10). -/
def leWord (w : Nat) (s : List Byte) : BitVec w := BitVec.ofNat w (leNat s)

/-- `bytes_le_w(v)`, w/8 bytes (00_scope.md R10). -/
def wordBytes {w : Nat} (v : BitVec w) : List Byte := natBytes (w / 8) v.toNat

/-- `s[off .. off + n)` (00_scope.md R9, `MemRead` of R11). -/
def slice (s : List Byte) (off n : Nat) : List Byte := (s.drop off).take n

/-- `words_le_w(s)` for a sequence of `n` words: word i is `le_w` of the i-th group of w/8 bytes
(00_scope.md R10). -/
def wordsOfBytes (w n : Nat) (s : List Byte) : Vector (BitVec w) n :=
  Vector.ofFn fun i => leWord w (slice s (w / 8 * i.val) (w / 8))

/-- `bytes_of_words_w`, the inverse of `words_le_w` (00_scope.md R10). -/
def bytesOfWords {w n : Nat} (ws : Vector (BitVec w) n) : List Byte := ws.toList.flatMap wordBytes

end Sys2Proof.Machine
end

