-- ==== Sys2Proof/Syntax.lean ====
section
/-! DEFINITION. The fifteen commands (00_scope.md R6, 30_encoding.md R98) as syntax, with the operands each one has
after decoding; and the raw command of 30_encoding.md R90. The decoder turns variant ids and register numbers into
constructors and payload bytes into lanes and words, so the machine sees no raw encoding. -/

namespace Sys2Proof

/-- A sponge variant, ids 0 to 5 in this order (00_scope.md R8, 10_state.md R24). -/
inductive SpVar where
  | sha3_224 | sha3_256 | sha3_384 | sha3_512 | shake128 | shake256
  deriving DecidableEq, Repr

/-- A host-readable register (10_state.md R38). -/
inductive RdReg where
  | id | spStatus | spRate | spDlen | b2Status | b2Dlen | b2Klen
  deriving DecidableEq, Repr

/-- A command, decoded: one constructor per row of the opcode map (30_encoding.md R98). -/
inductive Instr where
  /-- `KF.PERMUTE` with the 25 lanes its payload carries (40_keccak_f1600.md R130). -/
  | kfPermute (a : Lanes)
  /-- `SP.INIT` with the variant `VAR` (41_sponge.md R155). -/
  | spInit (v : SpVar)
  /-- `SP.RESET` (41_sponge.md R156). -/
  | spReset
  /-- `SP.ABSORB` with the payload, whose length is `LEN` (41_sponge.md R157). -/
  | spAbsorb (msg : List Byte)
  /-- `SP.FINALIZE` (41_sponge.md R158). -/
  | spFinalize
  /-- `SP.SQUEEZE` with `n`, the number of output bytes asked for (41_sponge.md R159). -/
  | spSqueeze (n : BitVec 24)
  /-- `SP.DIGEST` (41_sponge.md R160). -/
  | spDigest
  /-- `B2B.COMPRESS` with `LAST`, h, m, t0, t1 (42_blake2_compression.md R198). -/
  | b2bCompress (last : Bool) (h : Vector (BitVec 64) 8) (m : Vector (BitVec 64) 16) (t0 t1 : BitVec 64)
  /-- `B2S.COMPRESS` with `LAST`, h, m, t0, t1 (42_blake2_compression.md R199). -/
  | b2sCompress (last : Bool) (h : Vector (BitVec 32) 8) (m : Vector (BitVec 32) 16) (t0 t1 : BitVec 32)
  /-- `B2B.INIT` with `DLEN` and key, salt, personalization, whose lengths are `KLEN`, `SLEN`, `PLEN`
  (43_blake2_streaming.md R225). -/
  | b2bInit (dlen : BitVec 7) (key salt pers : List Byte)
  /-- `B2S.INIT`, operands as `b2bInit` (43_blake2_streaming.md R226). -/
  | b2sInit (dlen : BitVec 7) (key salt pers : List Byte)
  /-- `B2C.RESET` (43_blake2_streaming.md R227). -/
  | b2cReset
  /-- `B2C.UPDATE` with the payload, whose length is `LEN` (43_blake2_streaming.md R228). -/
  | b2cUpdate (msg : List Byte)
  /-- `B2C.FINAL` (43_blake2_streaming.md R229). -/
  | b2cFinal
  /-- `RDREG` with the register read (44_system.md R262). -/
  | rdreg (r : RdReg)
  deriving DecidableEq, Repr

/-- A raw command as the host delivers it: the word `W`, an integer, and the payload (30_encoding.md R90). -/
structure Command where
  word : Word
  payload : List Byte
  deriving DecidableEq, Repr

/-- The row of the opcode map a word's `OP` field selects (30_encoding.md R91, R98). -/
inductive Opcode where
  | kfPermute | spInit | spReset | spAbsorb | spFinalize | spSqueeze | spDigest
  | b2bCompress | b2sCompress | b2bInit | b2sInit | b2cReset | b2cUpdate | b2cFinal | rdreg
  deriving DecidableEq, Repr

/-- Why a command is illegal (30_encoding.md R101, cases (a) to (e)). The host sees one status for all of them. -/
inductive Illegal where
  /-- (a) `OP` is none of the fifteen. -/
  | opcode
  /-- (b) a bit the format requires to be 0 is 1. -/
  | reservedBits
  /-- (c) `SP.INIT` with `VAR` in 6 to 15. -/
  | variant
  /-- (d) `RDREG` with an unassigned register number. -/
  | register
  /-- (e) a payload length other than R99's. -/
  | payloadLength
  deriving DecidableEq, Repr

end Sys2Proof
end

