-- ==== Sys2Proof/Machine/Params.lean ====
section
/-! DEFINITION. The parameters of the blocks: the six sponge variants (00_scope.md R8, 41_sponge.md R150), the
register numbers (10_state.md R38), and the two BLAKE2 variants (00_scope.md R8, 42_blake2_compression.md R190, R191;
43_blake2_streaming.md R220 to R222, R224). -/

namespace Sys2Proof

/-- The variant id, the value of `SP_VAR` (00_scope.md R8). -/
def SpVar.id : SpVar → BitVec 4
  | .sha3_224 => 0
  | .sha3_256 => 1
  | .sha3_384 => 2
  | .sha3_512 => 3
  | .shake128 => 4
  | .shake256 => 5

/-- The variant of an id; 6 to 15 are reserved (30_encoding.md R94). -/
def SpVar.ofId? (v : BitVec 4) : Option SpVar :=
  match v.toNat with
  | 0 => some .sha3_224
  | 1 => some .sha3_256
  | 2 => some .sha3_384
  | 3 => some .sha3_512
  | 4 => some .shake128
  | 5 => some .shake256
  | _ => none

/-- `rate` in bytes (00_scope.md R8, 41_sponge.md R150). -/
def SpVar.rate : SpVar → Nat
  | .sha3_224 => 144
  | .sha3_256 => 136
  | .sha3_384 => 104
  | .sha3_512 => 72
  | .shake128 => 168
  | .shake256 => 136

/-- The suffix byte, which holds the first `1` of the padding (41_sponge.md R150, R153). -/
def SpVar.suffix : SpVar → Byte
  | .sha3_224 => 0x06
  | .sha3_256 => 0x06
  | .sha3_384 => 0x06
  | .sha3_512 => 0x06
  | .shake128 => 0x1F
  | .shake256 => 0x1F

/-- `dlen` in bytes; none for the SHAKE variants, which have no fixed output length (00_scope.md R8,
90_conflicts.md C8). -/
def SpVar.dlen : SpVar → Option Nat
  | .sha3_224 => some 28
  | .sha3_256 => some 32
  | .sha3_384 => some 48
  | .sha3_512 => some 64
  | .shake128 => none
  | .shake256 => none

/-- `xof` (00_scope.md R8). -/
def SpVar.xof : SpVar → Bool
  | .sha3_224 => false
  | .sha3_256 => false
  | .sha3_384 => false
  | .sha3_512 => false
  | .shake128 => true
  | .shake256 => true

/-- The register number (10_state.md R38). -/
def RdReg.number : RdReg → Byte
  | .id => 0x00
  | .spStatus => 0x10
  | .spRate => 0x11
  | .spDlen => 0x12
  | .b2Status => 0x20
  | .b2Dlen => 0x21
  | .b2Klen => 0x22

/-- The register of a number; every number but the seven is illegal (10_state.md R38, 30_encoding.md R101). -/
def RdReg.ofNumber? (n : Byte) : Option RdReg :=
  match n.toNat with
  | 0x00 => some .id
  | 0x10 => some .spStatus
  | 0x11 => some .spRate
  | 0x12 => some .spDlen
  | 0x20 => some .b2Status
  | 0x21 => some .b2Dlen
  | 0x22 => some .b2Klen
  | _ => none

namespace Machine

/-- What BLAKE2b and BLAKE2s differ in, for words of `w` bits: the rounds, rotation amounts and IV of F
(42_blake2_compression.md R190, R191), the bounds of the construction parameters (43_blake2_streaming.md R224) and the
two widths in which the parameter blocks differ (R221, R222). -/
structure B2Params (w : Nat) where
  /-- `NR`, the rounds of F. -/
  rounds : Nat
  /-- R1 to R4, the rotation amounts of G. -/
  r1 : Nat
  r2 : Nat
  r3 : Nat
  r4 : Nat
  /-- The IV table. -/
  iv : Vector (BitVec w) 8
  /-- `MAXD`, the longest digest. -/
  maxDlen : Nat
  /-- `MAXK`, the longest key. -/
  maxKlen : Nat
  /-- The exact length of a salt and of a personalization (`SP` in R224). -/
  saltLen : Nat
  /-- The width of the node offset field of the parameter block. -/
  nodeOffsetLen : Nat
  /-- The width of the reserved field of the parameter block. -/
  reservedLen : Nat

/-- `BS`, the block size: sixteen words, 128 bytes for w = 64 and 64 bytes for w = 32 (42_blake2_compression.md
R190). -/
def blockBytes (w : Nat) : Nat := 16 * (w / 8)

/-- BLAKE2b (42_blake2_compression.md R190, R191; 43_blake2_streaming.md R221, R224). -/
def paramsB : B2Params 64 where
  rounds := 12
  r1 := 32
  r2 := 24
  r3 := 16
  r4 := 63
  iv := #v[0x6A09E667F3BCC908, 0xBB67AE8584CAA73B, 0x3C6EF372FE94F82B, 0xA54FF53A5F1D36F1,
    0x510E527FADE682D1, 0x9B05688C2B3E6C1F, 0x1F83D9ABFB41BD6B, 0x5BE0CD19137E2179]
  maxDlen := 64
  maxKlen := 64
  saltLen := 16
  nodeOffsetLen := 8
  reservedLen := 14

/-- BLAKE2s (42_blake2_compression.md R190, R191; 43_blake2_streaming.md R222, R224). -/
def paramsS : B2Params 32 where
  rounds := 10
  r1 := 16
  r2 := 12
  r3 := 8
  r4 := 7
  iv := #v[0x6A09E667, 0xBB67AE85, 0x3C6EF372, 0xA54FF53A, 0x510E527F, 0x9B05688C, 0x1F83D9AB, 0x5BE0CD19]
  maxDlen := 32
  maxKlen := 32
  saltLen := 8
  nodeOffsetLen := 6
  reservedLen := 0

end Machine

end Sys2Proof
end

