-- ==== Sys2Proof/Machine/Operands.lean ====
section
/-! DEFINITION. The payload layouts (20_memory.md R62 to R67; 30_encoding.md R99, R100; 40_keccak_f1600.md R130;
42_blake2_compression.md R198, R199). Word operands are little-endian, lowest index first. -/

namespace Sys2Proof.Machine

/-- The 25 lanes of 200 bytes: `A[i] = le_64(s[8i .. 8i+8))` (40_keccak_f1600.md R130). -/
def lanesOfBytes (s : List Byte) : Lanes := wordsOfBytes 64 25 s

/-- `bytes_le_64(A[0]) ‖ … ‖ bytes_le_64(A[24])` (10_state.md R29, 40_keccak_f1600.md R130). -/
def bytesOfLanes (a : Lanes) : List Byte := bytesOfWords a

/-- The part h of a compression payload: its first 8 words (42_blake2_compression.md R198, R199). -/
def compressH (w : Nat) (s : List Byte) : Vector (BitVec w) 8 := wordsOfBytes w 8 s

/-- The part m: the next 16 words (42_blake2_compression.md R198, R199; 20_memory.md R65). -/
def compressM (w : Nat) (s : List Byte) : Vector (BitVec w) 16 := wordsOfBytes w 16 (s.drop (8 * (w / 8)))

/-- `t0`, the low counter word, after h and m (20_memory.md R67). -/
def compressT0 (w : Nat) (s : List Byte) : BitVec w := leWord w (slice s (24 * (w / 8)) (w / 8))

/-- `t1`, the high counter word, last (20_memory.md R67). -/
def compressT1 (w : Nat) (s : List Byte) : BitVec w := leWord w (slice s (25 * (w / 8)) (w / 8))

/-- The payload h ‖ m ‖ t0 ‖ t1 of a compression command (42_blake2_compression.md R198, R199). -/
def compressPayload {w : Nat} (h : Vector (BitVec w) 8) (m : Vector (BitVec w) 16) (t0 t1 : BitVec w) : List Byte :=
  bytesOfWords h ++ bytesOfWords m ++ wordBytes t0 ++ wordBytes t1

/-- The key of a construction payload: its first `KLEN` bytes (30_encoding.md R99). -/
def initKey (s : List Byte) (klen : Nat) : List Byte := slice s 0 klen

/-- The salt: the next `SLEN` bytes (30_encoding.md R99). -/
def initSalt (s : List Byte) (klen slen : Nat) : List Byte := slice s klen slen

/-- The personalization: the last `PLEN` bytes (30_encoding.md R99). -/
def initPers (s : List Byte) (klen slen plen : Nat) : List Byte := slice s (klen + slen) plen

end Sys2Proof.Machine
end

