-- ==== Sys2Proof/Machine/State.lean ====
section
/-! DEFINITION. The state of one core (10_state.md R20 to R41) as plain data, with the host's command stream it
consumes and the responses it has given (20_memory.md R75, 70_reset_and_hazards.md R309). -/

namespace Sys2Proof.Machine

/-- The phase of a configured sponge (10_state.md R26); `UNCONFIGURED` is `SpBlock.unconfigured`. -/
inductive SpPhase where
  | absorbing | squeezing
  deriving DecidableEq, Repr

/-- The registers of a configured sponge (10_state.md R20, R21, R24 to R27). -/
structure SpRegs where
  /-- `SP_PHASE`. -/
  phase : SpPhase
  /-- `SP_VAR`. -/
  var : SpVar
  /-- `A[0 .. 24]`. -/
  lanes : Lanes
  /-- `SP_BUF`. -/
  buf : List Byte
  /-- `SP_SQ_OFF`. -/
  sqOff : Nat
  deriving DecidableEq, Repr

/-- The sponge context. `unconfigured` is the phase `UNCONFIGURED`, "no instance has been created yet"
(70_reset_and_hazards.md R300); in it the other registers have no value (10_state.md R40: a state constructor
without them; log entry 1). -/
inductive SpBlock where
  | unconfigured
  | configured (r : SpRegs)
  deriving DecidableEq, Repr

/-- The phase of a configured BLAKE2 controller (10_state.md R34); `UNCONFIGURED` is `B2Block.unconfigured`. -/
inductive B2Phase where
  | initialized | updating | finalized
  deriving DecidableEq, Repr

/-- The registers of a configured BLAKE2 controller on words of `w` bits (10_state.md R30 to R34). -/
structure B2Regs (w : Nat) where
  /-- `B2_PHASE`. -/
  phase : B2Phase
  /-- `B2_DLEN`. -/
  dlen : BitVec 7
  /-- `B2_KLEN`. -/
  klen : BitVec 7
  /-- `B2_KEY`. -/
  key : List Byte
  /-- `B2_SALT`. -/
  salt : List Byte
  /-- `B2_PERS`. -/
  pers : List Byte
  /-- `B2_H[0 .. 7]`. -/
  h : Vector (BitVec w) 8
  /-- `B2_T`, 2w bits. -/
  t : BitVec (2 * w)
  /-- `B2_BUF`. -/
  buf : List Byte
  deriving DecidableEq, Repr

/-- The streaming context; `B2_VAR` is which configured constructor it is (10_state.md R30). `unconfigured` is the
phase `UNCONFIGURED`, in which the other registers have no value (R40; log entry 1). -/
inductive B2Block where
  | unconfigured
  | blake2b (r : B2Regs 64)
  | blake2s (r : B2Regs 32)
  deriving DecidableEq, Repr

/-- The status of a response (60_exceptions.md R270). -/
inductive Status where
  | ok
  /-- Raised by `B2B.INIT` and `B2S.INIT` (60_exceptions.md R271). -/
  | configurationError
  /-- Raised by the out-of-phase commands of 60_exceptions.md R272. -/
  | sequencingError
  /-- Raised by nothing (60_exceptions.md R274). -/
  | invariantViolation
  /-- Raised by the decoder (60_exceptions.md R275). -/
  | illegalCommand
  deriving DecidableEq, Repr

/-- A response: `STATUS` and `OUT` (30_encoding.md R90). -/
structure Response where
  status : Status
  out : List Byte
  deriving DecidableEq, Repr

/-- One core, with the two ends of its command port. -/
structure State where
  /-- The commands the host has still to deliver, next one first: the command stream of 20_memory.md R75. Each is
  delivered only after the response to the one before (70_reset_and_hazards.md R304). -/
  commands : List Command
  /-- The sponge context. -/
  sp : SpBlock
  /-- The streaming context. -/
  b2 : B2Block
  /-- The responses given so far, first one first (70_reset_and_hazards.md R309). -/
  responses : List Response
  deriving DecidableEq, Repr

/-- Why the machine could stop. -/
inductive Fault where
  /-- After an invariant violation (93_implementation_defined.md U3). Nobody raises it: no rule of the spec does
  (60_exceptions.md R274) and the types fix the operand sizes. Safe. -/
  | invariantViolation
  deriving DecidableEq, Repr

/-- Why an instruction could have no meaning. -/
inductive Refusal where
  /-- Raised by an arm of `exec` whose instruction has no meaning yet; there is no such arm. Safe. -/
  | notModelled (mnemonic : String)
  deriving DecidableEq, Repr

/-- The core right after hardware reset (70_reset_and_hazards.md R300, 10_state.md R40): both blocks `UNCONFIGURED`.
DESIGN CHOICE, log entries 2 and 3: no command is waiting and no response has been given. -/
def State.reset : State where
  commands := []
  sp := .unconfigured
  b2 := .unconfigured
  responses := []

end Sys2Proof.Machine
end

