-- ==== Sys2Proof/Machine/Flags.lean ====
section
/-! DEFINITION. The predicates that steer behaviour (10_state.md R37): phases, variants, buffer fullness, the
validation of construction parameters; and the register values `RDREG` shows (10_state.md R38). There are no
arithmetic flags (R37). -/

namespace Sys2Proof.Machine

/-- `SP_PHASE` as a number (10_state.md R26). -/
def SpBlock.phaseCode : SpBlock → BitVec 2
  | .unconfigured => 0
  | .configured r =>
    match r.phase with
    | .absorbing => 1
    | .squeezing => 2

/-- The number of a configured phase of B2C (10_state.md R34). -/
def B2Phase.code : B2Phase → BitVec 2
  | .initialized => 1
  | .updating => 2
  | .finalized => 3

/-- `B2_PHASE` as a number (10_state.md R34). -/
def B2Block.phaseCode : B2Block → BitVec 2
  | .unconfigured => 0
  | .blake2b r => r.phase.code
  | .blake2s r => r.phase.code

/-- `B2_VAR` as a number, 0 where there is none (10_state.md R30, R38). -/
def B2Block.varCode : B2Block → BitVec 1
  | .unconfigured => 0
  | .blake2b _ => 0
  | .blake2s _ => 1

/-- `B2_PHASE` ∈ {`INITIALIZED`, `UPDATING`}, the precondition of `B2C.UPDATE` and `B2C.FINAL`
(43_blake2_streaming.md R228, R229). -/
def B2Phase.open : B2Phase → Bool
  | .initialized => true
  | .updating => true
  | .finalized => false

/-- `len(SP_BUF) = rate`, the moment a block is absorbed (41_sponge.md R157). -/
def SpRegs.blockFull (r : SpRegs) : Bool := r.buf.length == r.var.rate

/-- `len(B2_BUF) = BS` (43_blake2_streaming.md R228). -/
def B2Regs.blockFull {w : Nat} (r : B2Regs w) : Bool := r.buf.length == blockBytes w

/-- The construction parameters are valid (43_blake2_streaming.md R224). -/
def validParams {w : Nat} (p : B2Params w) (dlen klen slen plen : Nat) : Bool :=
  decide (1 ≤ dlen ∧ dlen ≤ p.maxDlen ∧ klen ≤ p.maxKlen ∧ (slen = 0 ∨ slen = p.saltLen) ∧
    (plen = 0 ∨ plen = p.saltLen))

/-- The number of a status (60_exceptions.md R270). -/
def Status.code : Status → Nat
  | .ok => 0
  | .configurationError => 1
  | .sequencingError => 2
  | .invariantViolation => 3
  | .illegalCommand => 4

/-- `SP_STATUS`: `PHASE` in bits 1:0, `VAR` in bits 7:4, `XOF` in bit 8; 0 while `UNCONFIGURED` (10_state.md R38). -/
def spStatusValue (b : SpBlock) : Word :=
  match b with
  | .unconfigured => 0
  | .configured r =>
    b.phaseCode.setWidth 32 ||| r.var.id.setWidth 32 <<< 4 ||| (BitVec.ofBool r.var.xof).setWidth 32 <<< 8

/-- `SP_RATE` (10_state.md R38). -/
def spRateValue (b : SpBlock) : Word :=
  match b with
  | .unconfigured => 0
  | .configured r => BitVec.ofNat 32 r.var.rate

/-- `SP_DLEN`, 0 where the variant has no fixed length (10_state.md R38). -/
def spDlenValue (b : SpBlock) : Word :=
  match b with
  | .unconfigured => 0
  | .configured r => BitVec.ofNat 32 (r.var.dlen.getD 0)

/-- `B2_STATUS`: `PHASE` in bits 1:0, `VAR` in bit 4; 0 while `UNCONFIGURED` (10_state.md R38). -/
def b2StatusValue (b : B2Block) : Word := b.phaseCode.setWidth 32 ||| b.varCode.setWidth 32 <<< 4

/-- `B2_DLEN` (10_state.md R38). -/
def b2DlenValue (b : B2Block) : Word :=
  match b with
  | .unconfigured => 0
  | .blake2b r => r.dlen.setWidth 32
  | .blake2s r => r.dlen.setWidth 32

/-- `B2_KLEN` (10_state.md R38). -/
def b2KlenValue (b : B2Block) : Word :=
  match b with
  | .unconfigured => 0
  | .blake2b r => r.klen.setWidth 32
  | .blake2s r => r.klen.setWidth 32

/-- The 32-bit value of a host-readable register (10_state.md R38). -/
def readReg (r : RdReg) (s : State) : Word :=
  match r with
  | .id => 0x4B454343
  | .spStatus => spStatusValue s.sp
  | .spRate => spRateValue s.sp
  | .spDlen => spDlenValue s.sp
  | .b2Status => b2StatusValue s.b2
  | .b2Dlen => b2DlenValue s.b2
  | .b2Klen => b2KlenValue s.b2

end Sys2Proof.Machine
end

