-- ==== Sys2Proof/Machine/Ops.lean ====
section
/-! DEFINITION. The operations every meaning is written with: giving a response, raising an error (the hardware's
"trap entry", 60_exceptions.md R273), and writing one of the two contexts. -/

namespace Sys2Proof.Machine

/-- Record the response to a command (30_encoding.md R90, 70_reset_and_hazards.md R309). -/
def State.respond (s : State) (st : Status) (out : List Byte) : State :=
  { s with responses := s.responses ++ [⟨st, out⟩] }

/-- Replace the sponge context. -/
def State.setSp (s : State) (r : SpRegs) : State := { s with sp := .configured r }

/-- Replace the streaming context. -/
def State.setB2 (s : State) (b : B2Block) : State := { s with b2 := b }

/-- Answer a command with `OK` and the output bytes. -/
def answer (s : State) (out : List Byte) : Host.Outcome State Fault Refusal := .next (s.respond .ok out)

/-- Raise an error: the response is the code with empty output, and every register is as before (60_exceptions.md
R273). There is no return from it: nothing is saved, and the core executes the next command by its ordinary rule
(R278). -/
def raise (e : Status) (s : State) : Host.Outcome State Fault Refusal := .next (s.respond e [])

end Sys2Proof.Machine
end

