-- ==== Sys2Proof/Machine/Blake2F.lean ====
section
/-! DEFINITION. Blocks B2BF and B2SF: the compression function F, written once for words of `w` bits, and the commands
`B2B.COMPRESS` and `B2S.COMPRESS` (42_blake2_compression.md). -/

namespace Sys2Proof.Machine

/-- The schedule `SIGMA`, ten rows (42_blake2_compression.md R192). -/
def sigma : Vector (Vector (Fin 16) 16) 10 :=
  #v[#v[0, 1, 2, 3, 4, 5, 6, 7, 8, 9, 10, 11, 12, 13, 14, 15],
    #v[14, 10, 4, 8, 9, 15, 13, 6, 1, 12, 0, 2, 11, 7, 5, 3],
    #v[11, 8, 12, 0, 5, 2, 15, 13, 10, 14, 3, 6, 7, 1, 9, 4],
    #v[7, 9, 3, 1, 13, 12, 11, 14, 2, 6, 5, 10, 4, 0, 15, 8],
    #v[9, 0, 5, 7, 2, 4, 10, 15, 14, 1, 11, 12, 6, 8, 3, 13],
    #v[2, 12, 6, 10, 0, 11, 8, 3, 4, 13, 7, 5, 15, 14, 1, 9],
    #v[12, 5, 1, 15, 14, 13, 4, 10, 0, 7, 6, 3, 9, 2, 8, 11],
    #v[13, 11, 7, 14, 12, 1, 3, 9, 5, 0, 15, 4, 8, 6, 2, 10],
    #v[6, 15, 14, 9, 11, 3, 0, 8, 12, 2, 13, 7, 1, 4, 10, 5],
    #v[10, 2, 8, 4, 7, 6, 1, 5, 15, 11, 9, 14, 3, 12, 13, 0]]

/-- `G(v, a, b, c, d, x, y)`: eight assignments in sequence (42_blake2_compression.md R194). -/
def mixG {w : Nat} (p : B2Params w) (v : Vector (BitVec w) 16) (a b c d : Fin 16) (x y : BitVec w) :
    Vector (BitVec w) 16 :=
  let v := v.set a (v[a] + v[b] + x)
  let v := v.set d ((v[d] ^^^ v[a]).rotateRight p.r1)
  let v := v.set c (v[c] + v[d])
  let v := v.set b ((v[b] ^^^ v[c]).rotateRight p.r2)
  let v := v.set a (v[a] + v[b] + y)
  let v := v.set d ((v[d] ^^^ v[a]).rotateRight p.r3)
  let v := v.set c (v[c] + v[d])
  v.set b ((v[b] ^^^ v[c]).rotateRight p.r4)

/-- The working vector before round 0 (42_blake2_compression.md R195): the counter enters v[12] and v[13] for every
block, the mask enters v[14] only for the last (90_conflicts.md C2). -/
def initVector {w : Nat} (p : B2Params w) (h : Vector (BitVec w) 8) (t0 t1 : BitVec w) (last : Bool) :
    Vector (BitVec w) 16 :=
  let v : Vector (BitVec w) 16 := h ++ p.iv
  let v := v.set 12 (v[12] ^^^ t0)
  let v := v.set 13 (v[13] ^^^ t1)
  if last then v.set 14 (v[14] ^^^ BitVec.allOnes w) else v

/-- One round with its row of the schedule: four columns, then four diagonals (42_blake2_compression.md R196). -/
def roundF {w : Nat} (p : B2Params w) (m : Vector (BitVec w) 16) (s : Vector (Fin 16) 16)
    (v : Vector (BitVec w) 16) : Vector (BitVec w) 16 :=
  let v := mixG p v 0 4 8 12 m[s[0]] m[s[1]]
  let v := mixG p v 1 5 9 13 m[s[2]] m[s[3]]
  let v := mixG p v 2 6 10 14 m[s[4]] m[s[5]]
  let v := mixG p v 3 7 11 15 m[s[6]] m[s[7]]
  let v := mixG p v 0 5 10 15 m[s[8]] m[s[9]]
  let v := mixG p v 1 6 11 12 m[s[10]] m[s[11]]
  let v := mixG p v 2 7 8 13 m[s[12]] m[s[13]]
  mixG p v 3 4 9 14 m[s[14]] m[s[15]]

/-- Rounds 0 .. n − 1; round r uses row r mod 10 of the schedule (42_blake2_compression.md R192, R197;
90_conflicts.md C3). -/
def roundsF {w : Nat} (p : B2Params w) (m : Vector (BitVec w) 16) :
    Nat → Vector (BitVec w) 16 → Vector (BitVec w) 16
  | 0, v => v
  | n + 1, v => roundF p m (sigma[n % 10]'(by omega)) (roundsF p m n v)

/-- `F(h, m, t0, t1, last)` (42_blake2_compression.md R197). -/
def compressF {w : Nat} (p : B2Params w) (h : Vector (BitVec w) 8) (m : Vector (BitVec w) 16) (t0 t1 : BitVec w)
    (last : Bool) : Vector (BitVec w) 8 :=
  let v := roundsF p m p.rounds (initVector p h t0 t1 last)
  Vector.ofFn fun i => h[i] ^^^ v[i.val] ^^^ v[i.val + 8]

/-- `B2B.COMPRESS` (42_blake2_compression.md R198): no register is read or written. -/
def execB2bCompress (last : Bool) (h : Vector (BitVec 64) 8) (m : Vector (BitVec 64) 16) (t0 t1 : BitVec 64)
    (s : State) : Host.Outcome State Fault Refusal :=
  answer s (bytesOfWords (compressF paramsB h m t0 t1 last))

/-- `B2S.COMPRESS` (42_blake2_compression.md R199): no register is read or written. -/
def execB2sCompress (last : Bool) (h : Vector (BitVec 32) 8) (m : Vector (BitVec 32) 16) (t0 t1 : BitVec 32)
    (s : State) : Host.Outcome State Fault Refusal :=
  answer s (bytesOfWords (compressF paramsS h m t0 t1 last))

end Sys2Proof.Machine
end

