-- ==== Sys2Proof/Machine/Blake2Stream.lean ====
section
/-! DEFINITION. Block B2C: the BLAKE2 streaming controller, its operations written once for words of `w` bits, and its
five commands (43_blake2_streaming.md). -/

namespace Sys2Proof.Machine

/-- The parameter block `PB` (43_blake2_streaming.md R221, R222): digest length, key length, fanout 1, depth 1, leaf
length (4 bytes), node offset, node depth, inner length, reserved, salt, personalization; the fields the controller
has no register for are zero. -/
def paramBlock {w : Nat} (p : B2Params w) (r : B2Regs w) : List Byte :=
  [r.dlen.setWidth 8, r.klen.setWidth 8, 1, 1] ++ zeros 4 ++ zeros p.nodeOffsetLen ++ [0] ++ [0] ++
    zeros p.reservedLen ++ r.salt ++ r.pers

/-- `InitState()` (43_blake2_streaming.md R223): IV xor parameter block, counter 0, and the zero-padded key block in
the buffer, not compressed (90_conflicts.md C6). -/
def B2Regs.initState {w : Nat} (p : B2Params w) (r : B2Regs w) : B2Regs w :=
  let pbw := wordsOfBytes w 8 (paramBlock p r)
  { r with
    h := Vector.ofFn fun i => p.iv[i] ^^^ pbw[i]
    t := 0
    buf := if r.klen = 0 then [] else r.key ++ zeros (blockBytes w - r.klen.toNat)
    phase := .initialized }

/-- `CompressBuf(last)` (43_blake2_streaming.md R230): the counter is advanced by the bytes in the buffer first, and F
sees the advanced value, low word and high word. -/
def B2Regs.compressBuf {w : Nat} (p : B2Params w) (r : B2Regs w) (last : Bool) : B2Regs w :=
  let block := r.buf ++ zeros (blockBytes w - r.buf.length)
  let t := r.t + BitVec.ofNat (2 * w) r.buf.length
  { r with
    t := t
    h := compressF p r.h (wordsOfBytes w 16 block) (t.extractLsb' 0 w) (t.extractLsb' w w) last }

/-- Take in one message byte: a full buffer is compressed only now that a further byte has come
(43_blake2_streaming.md R228). -/
def B2Regs.updateByte {w : Nat} (p : B2Params w) (r : B2Regs w) (b : Byte) : B2Regs w :=
  if r.blockFull then { r.compressBuf p false with buf := [b] } else { r with buf := r.buf ++ [b] }

/-- Take in message bytes one at a time and go to `UPDATING` (43_blake2_streaming.md R228). -/
def B2Regs.update {w : Nat} (p : B2Params w) (r : B2Regs w) (msg : List Byte) : B2Regs w :=
  { msg.foldl (B2Regs.updateByte p) r with phase := .updating }

/-- The last compression; the buffer is left as it is (43_blake2_streaming.md R229). -/
def B2Regs.final {w : Nat} (p : B2Params w) (r : B2Regs w) : B2Regs w :=
  { r.compressBuf p true with phase := .finalized }

/-- The digest: the first `B2_DLEN` bytes of the chain value (43_blake2_streaming.md R229, 20_memory.md R66). -/
def B2Regs.digest {w : Nat} (r : B2Regs w) : List Byte := (bytesOfWords r.h).take r.dlen.toNat

/-- The registers an `INIT` command with valid parameters leaves; an absent salt or personalization is stored as zero
bytes (43_blake2_streaming.md R225, 10_state.md R30). -/
def B2Regs.construct {w : Nat} (p : B2Params w) (dlen : BitVec 7) (key salt pers : List Byte) : B2Regs w :=
  B2Regs.initState p
    { phase := .initialized
      dlen := dlen
      klen := BitVec.ofNat 7 key.length
      key := key
      salt := if salt = [] then zeros p.saltLen else salt
      pers := if pers = [] then zeros p.saltLen else pers
      h := p.iv
      t := 0
      buf := [] }

/-- `B2B.INIT` (43_blake2_streaming.md R225): accepted in every phase; invalid parameters raise `ConfigurationError`
and change nothing. -/
def execB2bInit (dlen : BitVec 7) (key salt pers : List Byte) (s : State) : Host.Outcome State Fault Refusal :=
  if validParams paramsB dlen.toNat key.length salt.length pers.length then
    answer (s.setB2 (.blake2b (B2Regs.construct paramsB dlen key salt pers))) []
  else raise .configurationError s

/-- `B2S.INIT` (43_blake2_streaming.md R226). -/
def execB2sInit (dlen : BitVec 7) (key salt pers : List Byte) (s : State) : Host.Outcome State Fault Refusal :=
  if validParams paramsS dlen.toNat key.length salt.length pers.length then
    answer (s.setB2 (.blake2s (B2Regs.construct paramsS dlen key salt pers))) []
  else raise .configurationError s

/-- `B2C.RESET` (43_blake2_streaming.md R227). -/
def execB2cReset (s : State) : Host.Outcome State Fault Refusal :=
  match s.b2 with
  | .unconfigured => raise .sequencingError s
  | .blake2b r => answer (s.setB2 (.blake2b (r.initState paramsB))) []
  | .blake2s r => answer (s.setB2 (.blake2s (r.initState paramsS))) []

/-- `B2C.UPDATE` (43_blake2_streaming.md R228). -/
def execB2cUpdate (msg : List Byte) (s : State) : Host.Outcome State Fault Refusal :=
  match s.b2 with
  | .unconfigured => raise .sequencingError s
  | .blake2b r =>
    if r.phase.open then answer (s.setB2 (.blake2b (r.update paramsB msg))) [] else raise .sequencingError s
  | .blake2s r =>
    if r.phase.open then answer (s.setB2 (.blake2s (r.update paramsS msg))) [] else raise .sequencingError s

/-- `B2C.FINAL` (43_blake2_streaming.md R229). -/
def execB2cFinal (s : State) : Host.Outcome State Fault Refusal :=
  match s.b2 with
  | .unconfigured => raise .sequencingError s
  | .blake2b r =>
    if r.phase.open then answer (s.setB2 (.blake2b (r.final paramsB))) (r.final paramsB).digest
    else raise .sequencingError s
  | .blake2s r =>
    if r.phase.open then answer (s.setB2 (.blake2s (r.final paramsS))) (r.final paramsS).digest
    else raise .sequencingError s

end Sys2Proof.Machine
end

