-- ==== Sys2Proof/Machine/Keccak.lean ====
section
/-! DEFINITION. Block KF: the permutation Keccak-f[1600] and the command `KF.PERMUTE` (40_keccak_f1600.md). -/

namespace Sys2Proof.Machine

/-- The column parity `C[x]` (40_keccak_f1600.md R122). -/
def thetaC (a : Lanes) : Vector Lane 5 :=
  Vector.ofFn fun x => a[x.val] ^^^ a[x.val + 5] ^^^ a[x.val + 10] ^^^ a[x.val + 15] ^^^ a[x.val + 20]

/-- The correction `D[x] = C[x+4] ^ rotl_64(C[x+1], 1)`, indices modulo 5 (40_keccak_f1600.md R122). -/
def thetaD (col : Vector Lane 5) : Vector Lane 5 :=
  Vector.ofFn fun x =>
    col[(x.val + 4) % 5]'(by omega) ^^^ (col[(x.val + 1) % 5]'(by omega)).rotateLeft 1

/-- θ (40_keccak_f1600.md R122). -/
def theta (a : Lanes) : Lanes := Vector.ofFn fun i => a[i] ^^^ (thetaD (thetaC a))[i.val % 5]

/-- The rotation offsets `RHO` (40_keccak_f1600.md R123). -/
def rhoOffsets : Vector Nat 25 :=
  #v[0, 1, 62, 28, 27, 36, 44, 6, 55, 20, 3, 10, 43, 25, 39, 41, 45, 15, 21, 8, 18, 2, 61, 56, 14]

/-- ρ (40_keccak_f1600.md R123). -/
def rho (a : Lanes) : Lanes := Vector.ofFn fun i => a[i].rotateLeft rhoOffsets[i]

/-- The gather table `PI_SRC` (40_keccak_f1600.md R124). -/
def piSource : Vector (Fin 25) 25 :=
  #v[0, 6, 12, 18, 24, 3, 9, 10, 16, 22, 1, 7, 13, 19, 20, 4, 5, 11, 17, 23, 2, 8, 14, 15, 21]

/-- π (40_keccak_f1600.md R124). -/
def pi (a : Lanes) : Lanes := Vector.ofFn fun i => a[piSource[i]]

/-- χ: lane x of a row with the next two lanes of the row, cyclically (40_keccak_f1600.md R125). -/
def chi (a : Lanes) : Lanes :=
  Vector.ofFn fun i =>
    a[i] ^^^ (~~~(a[(i.val + 1) % 5 + 5 * (i.val / 5)]'(by omega)) &&&
      a[(i.val + 2) % 5 + 5 * (i.val / 5)]'(by omega))

/-- The table `RC` as the spec prints it, two columns of twelve: row r holds `RC[r]` and `RC[r + 12]`
(40_keccak_f1600.md R126). -/
def roundConstantRows : Vector (Lane × Lane) 12 :=
  #v[(0x0000000000000001, 0x000000008000808B),
    (0x0000000000008082, 0x800000000000008B),
    (0x800000000000808A, 0x8000000000008089),
    (0x8000000080008000, 0x8000000000008003),
    (0x000000000000808B, 0x8000000000008002),
    (0x0000000080000001, 0x8000000000000080),
    (0x8000000080008081, 0x000000000000800A),
    (0x8000000000008009, 0x800000008000000A),
    (0x000000000000008A, 0x8000000080008081),
    (0x0000000000000088, 0x8000000000008080),
    (0x0000000080008009, 0x0000000080000001),
    (0x000000008000000A, 0x8000000080008008)]

/-- The round constants `RC[0]` to `RC[23]`: the left column of the table, then the right one (40_keccak_f1600.md
R126). -/
def roundConstants : Vector Lane 24 := roundConstantRows.map Prod.fst ++ roundConstantRows.map Prod.snd

/-- ι for a round constant (40_keccak_f1600.md R126). -/
def iota (c : Lane) (a : Lanes) : Lanes := a.set 0 (a[0] ^^^ c)

/-- One round with its constant: θ, ρ, π, χ, ι in this order (40_keccak_f1600.md R121, R127). -/
def keccakRound (c : Lane) (a : Lanes) : Lanes := iota c (chi (pi (rho (theta a))))

/-- `KeccakF`: the 24 rounds, in the order of the round constants (40_keccak_f1600.md R128). -/
def keccakF (a : Lanes) : Lanes := roundConstants.toList.foldl (fun a c => keccakRound c a) a

/-- `KF.PERMUTE` (40_keccak_f1600.md R130): no register is read or written. -/
def execKfPermute (a : Lanes) (s : State) : Host.Outcome State Fault Refusal :=
  answer s (bytesOfLanes (keccakF a))

end Sys2Proof.Machine
end

