-- ==== Sys2Proof/Machine/Sponge.lean ====
section
/-! DEFINITION. Block SP: the sponge engine and its six commands (41_sponge.md). -/

namespace Sys2Proof.Machine

/-- `XorBlock(A, P)` for a block of `rate` bytes: lanes 0 .. rate/8 − 1 take the block, the rest stay (41_sponge.md
R151, 20_memory.md R63). -/
def xorBlock (rate : Nat) (a : Lanes) (p : List Byte) : Lanes :=
  Vector.ofFn fun j => if j.val < rate / 8 then a[j] ^^^ leWord 64 (slice p (8 * j.val) 8) else a[j]

/-- Absorb one whole block: exclusive-or it in and permute (41_sponge.md R157, R158). -/
def absorbBlock (rate : Nat) (a : Lanes) (p : List Byte) : Lanes := keccakF (xorBlock rate a p)

/-- `PadBlock(B, suffix, rate)`: the buffer, the suffix byte, zeros up to `rate` bytes, and 0x80 exclusive-ored into
the last byte (41_sponge.md R152, R153). -/
def padBlock (buf : List Byte) (suffix : Byte) (rate : Nat) : List Byte :=
  (buf ++ suffix :: zeros (rate - 1 - buf.length)).modify (rate - 1) (· ^^^ 0x80)

/-- A fresh sponge of a variant: lanes zero, buffer empty, offset 0, phase `ABSORBING` (41_sponge.md R155, R156). -/
def SpRegs.fresh (v : SpVar) : SpRegs where
  phase := .absorbing
  var := v
  lanes := Vector.replicate 25 0
  buf := []
  sqOff := 0

/-- Take in one message byte; a block that becomes full is absorbed at once (41_sponge.md R157). -/
def SpRegs.absorbByte (r : SpRegs) (b : Byte) : SpRegs :=
  let r1 : SpRegs := { r with buf := r.buf ++ [b] }
  if r1.blockFull then { r1 with lanes := absorbBlock r.var.rate r.lanes r1.buf, buf := [] } else r1

/-- Take in message bytes one at a time (41_sponge.md R157). -/
def SpRegs.absorb (r : SpRegs) (msg : List Byte) : SpRegs := msg.foldl SpRegs.absorbByte r

/-- Pad and absorb the last block and go to `SQUEEZING` (41_sponge.md R158). -/
def SpRegs.finalize (r : SpRegs) : SpRegs :=
  { r with
    lanes := absorbBlock r.var.rate r.lanes (padBlock r.buf r.var.suffix r.var.rate)
    buf := []
    sqOff := 0
    phase := .squeezing }

/-- Byte number o of the little-endian serialization of the lanes: bits 8·(o mod 8)+7 .. 8·(o mod 8) of lane o div 8
(41_sponge.md R154, 10_state.md R29). -/
def laneByte (a : Lanes) (o : Nat) : Byte := (a.toList.getD (o / 8) 0).extractLsb' (8 * (o % 8)) 8

/-- Permute if the current chunk is used up (41_sponge.md R154). -/
def SpRegs.nextChunk (r : SpRegs) : SpRegs :=
  if r.sqOff = r.var.rate then { r with lanes := keccakF r.lanes, sqOff := 0 } else r

/-- `SqueezeBytes(n)`: the bytes emitted and the registers after (41_sponge.md R154). -/
def squeezeBytes : Nat → SpRegs → List Byte × SpRegs
  | 0, r => ([], r)
  | n + 1, r =>
    let r1 := r.nextChunk
    let rest := squeezeBytes n { r1 with sqOff := r1.sqOff + 1 }
    (laneByte r1.lanes r1.sqOff :: rest.1, rest.2)

/-- `SP.INIT` (41_sponge.md R155): accepted in every phase. -/
def execSpInit (v : SpVar) (s : State) : Host.Outcome State Fault Refusal :=
  answer (s.setSp (SpRegs.fresh v)) []

/-- `SP.RESET` (41_sponge.md R156). -/
def execSpReset (s : State) : Host.Outcome State Fault Refusal :=
  match s.sp with
  | .unconfigured => raise .sequencingError s
  | .configured r => answer (s.setSp (SpRegs.fresh r.var)) []

/-- `SP.ABSORB` (41_sponge.md R157). -/
def execSpAbsorb (msg : List Byte) (s : State) : Host.Outcome State Fault Refusal :=
  match s.sp with
  | .unconfigured => raise .sequencingError s
  | .configured r =>
    match r.phase with
    | .absorbing => answer (s.setSp (r.absorb msg)) []
    | .squeezing => raise .sequencingError s

/-- `SP.FINALIZE` (41_sponge.md R158): all six variants. -/
def execSpFinalize (s : State) : Host.Outcome State Fault Refusal :=
  match s.sp with
  | .unconfigured => raise .sequencingError s
  | .configured r =>
    match r.phase with
    | .absorbing => answer (s.setSp r.finalize) []
    | .squeezing => raise .sequencingError s

/-- `SP.SQUEEZE` (41_sponge.md R159): only in `SQUEEZING` and on a SHAKE variant. -/
def execSpSqueeze (n : BitVec 24) (s : State) : Host.Outcome State Fault Refusal :=
  match s.sp with
  | .unconfigured => raise .sequencingError s
  | .configured r =>
    match r.phase, r.var.xof with
    | .squeezing, true => answer (s.setSp (squeezeBytes n.toNat r).2) (squeezeBytes n.toNat r).1
    | .squeezing, false => raise .sequencingError s
    | .absorbing, _ => raise .sequencingError s

/-- `SP.DIGEST` (41_sponge.md R160): only in `ABSORBING` and on a variant with a fixed output length, which is a SHA3
variant. -/
def execSpDigest (s : State) : Host.Outcome State Fault Refusal :=
  match s.sp with
  | .unconfigured => raise .sequencingError s
  | .configured r =>
    match r.phase, r.var.dlen with
    | .absorbing, some d => answer (s.setSp (squeezeBytes d r.finalize).2) (squeezeBytes d r.finalize).1
    | .absorbing, none => raise .sequencingError s
    | .squeezing, _ => raise .sequencingError s

end Sys2Proof.Machine
end

