-- ==== Sys2Proof/Machine/System.lean ====
section
/-! DEFINITION. The system command `RDREG` (44_system.md). -/

namespace Sys2Proof.Machine

/-- `RDREG` (44_system.md R262): the register's value in 4 bytes, least significant first; nothing is written. -/
def execRdreg (r : RdReg) (s : State) : Host.Outcome State Fault Refusal :=
  answer s (wordBytes (readReg r s))

end Sys2Proof.Machine
end

