-- ==== Sys2Proof/Machine/Dispatch.lean ====
section
/-! DEFINITION. The meaning of every instruction, one arm each. -/

namespace Sys2Proof.Machine

/-- Execute one decoded command. -/
def exec (i : Instr) (s : State) : Host.Outcome State Fault Refusal :=
  match i with
  | .kfPermute a => Sys2Proof.Machine.execKfPermute a s
  | .spInit v => Sys2Proof.Machine.execSpInit v s
  | .spReset => Sys2Proof.Machine.execSpReset s
  | .spAbsorb msg => Sys2Proof.Machine.execSpAbsorb msg s
  | .spFinalize => Sys2Proof.Machine.execSpFinalize s
  | .spSqueeze n => Sys2Proof.Machine.execSpSqueeze n s
  | .spDigest => Sys2Proof.Machine.execSpDigest s
  | .b2bCompress last h m t0 t1 => Sys2Proof.Machine.execB2bCompress last h m t0 t1 s
  | .b2sCompress last h m t0 t1 => Sys2Proof.Machine.execB2sCompress last h m t0 t1 s
  | .b2bInit dlen key salt pers => Sys2Proof.Machine.execB2bInit dlen key salt pers s
  | .b2sInit dlen key salt pers => Sys2Proof.Machine.execB2sInit dlen key salt pers s
  | .b2cReset => Sys2Proof.Machine.execB2cReset s
  | .b2cUpdate msg => Sys2Proof.Machine.execB2cUpdate msg s
  | .b2cFinal => Sys2Proof.Machine.execB2cFinal s
  | .rdreg r => Sys2Proof.Machine.execRdreg r s

end Sys2Proof.Machine
end

