-- ==== Sys2Proof/Config.lean ====
section
/-! DEFINITION. What an implementation fixes (00_scope.md R8, general parameters). The hardware leaves no value open
that an instruction could produce, so there is no free value here. -/

namespace Sys2Proof

/-- `LEN_MAX`, the largest byte count one command carries (00_scope.md R8, 92_eei_decisions.md D2). -/
def Config.lenMax : Nat := 2 ^ 24 - 1

/-- `N_INST`, the copies of the whole core (10_state.md R41, 92_eei_decisions.md D14): one `State` is one core. -/
def Config.nInst : Nat := 1

end Sys2Proof
end

