-- ==== Sys2Proof/WellFormed.lean ====
section
/-! DEFINITION. Which instructions an encoding exists for: the byte sequences an instruction carries fit the length
fields that count them (30_encoding.md R93, R96). Every other operand fits by its type. -/

namespace Sys2Proof

/-- The lengths fit their fields: `LEN` 24 bits, `KLEN` 7 bits, `SLEN` and `PLEN` 5 bits (30_encoding.md R93, R96).
Lengths the variant does not allow are still well formed: they are legal encodings answered with
`ConfigurationError` (R102). -/
def Instr.wellFormed : Instr → Bool
  | .kfPermute _ => true
  | .spInit _ => true
  | .spReset => true
  | .spAbsorb msg => decide (msg.length ≤ Config.lenMax)
  | .spFinalize => true
  | .spSqueeze _ => true
  | .spDigest => true
  | .b2bCompress _ _ _ _ _ => true
  | .b2sCompress _ _ _ _ _ => true
  | .b2bInit _ key salt pers => decide (key.length < 2 ^ 7 ∧ salt.length < 2 ^ 5 ∧ pers.length < 2 ^ 5)
  | .b2sInit _ key salt pers => decide (key.length < 2 ^ 7 ∧ salt.length < 2 ^ 5 ∧ pers.length < 2 ^ 5)
  | .b2cReset => true
  | .b2cUpdate msg => decide (msg.length ≤ Config.lenMax)
  | .b2cFinal => true
  | .rdreg _ => true

end Sys2Proof
end

