-- ==== Sys2Proof/Decode.lean ====
section
/-! DEFINITION. The decoder and the encoder (30_encoding.md R91 to R101). Decoding is total: every command is one of
the fifteen with legal fields or illegal for a named reason. -/

namespace Sys2Proof

/-- The opcode byte of a row (30_encoding.md R98). -/
def Opcode.code : Opcode → Byte
  | .kfPermute => 0x01
  | .spInit => 0x10
  | .spReset => 0x11
  | .spAbsorb => 0x12
  | .spFinalize => 0x13
  | .spSqueeze => 0x14
  | .spDigest => 0x15
  | .b2bCompress => 0x20
  | .b2sCompress => 0x21
  | .b2bInit => 0x30
  | .b2sInit => 0x31
  | .b2cReset => 0x32
  | .b2cUpdate => 0x33
  | .b2cFinal => 0x34
  | .rdreg => 0x40

/-- The row of an opcode byte; the other 241 values are reserved (30_encoding.md R98, R102). -/
def Opcode.ofByte? (b : Byte) : Option Opcode :=
  match b.toNat with
  | 0x01 => some .kfPermute
  | 0x10 => some .spInit
  | 0x11 => some .spReset
  | 0x12 => some .spAbsorb
  | 0x13 => some .spFinalize
  | 0x14 => some .spSqueeze
  | 0x15 => some .spDigest
  | 0x20 => some .b2bCompress
  | 0x21 => some .b2sCompress
  | 0x30 => some .b2bInit
  | 0x31 => some .b2sInit
  | 0x32 => some .b2cReset
  | 0x33 => some .b2cUpdate
  | 0x34 => some .b2cFinal
  | 0x40 => some .rdreg
  | _ => none

/-- The row an instruction is of (30_encoding.md R98). -/
def Instr.opcode : Instr → Opcode
  | .kfPermute _ => .kfPermute
  | .spInit _ => .spInit
  | .spReset => .spReset
  | .spAbsorb _ => .spAbsorb
  | .spFinalize => .spFinalize
  | .spSqueeze _ => .spSqueeze
  | .spDigest => .spDigest
  | .b2bCompress _ _ _ _ _ => .b2bCompress
  | .b2sCompress _ _ _ _ _ => .b2sCompress
  | .b2bInit _ _ _ _ => .b2bInit
  | .b2sInit _ _ _ _ => .b2sInit
  | .b2cReset => .b2cReset
  | .b2cUpdate _ => .b2cUpdate
  | .b2cFinal => .b2cFinal
  | .rdreg _ => .rdreg

/-- `OP = W[7:0]` (30_encoding.md R91). -/
def fieldOp (w : Word) : Byte := w.extractLsb' 0 8

/-- `LEN = W[31:8]` (30_encoding.md R93). -/
def fieldLen (w : Word) : BitVec 24 := w.extractLsb' 8 24

/-- `VAR = W[11:8]` (30_encoding.md R94). -/
def fieldVar (w : Word) : BitVec 4 := w.extractLsb' 8 4

/-- `LAST = W[8]` (30_encoding.md R95). -/
def fieldLast (w : Word) : Bool := w.getLsbD 8

/-- `DLEN = W[14:8]` (30_encoding.md R96). -/
def fieldDlen (w : Word) : BitVec 7 := w.extractLsb' 8 7

/-- `KLEN = W[21:15]` (30_encoding.md R96). -/
def fieldKlen (w : Word) : BitVec 7 := w.extractLsb' 15 7

/-- `SLEN = W[26:22]` (30_encoding.md R96). -/
def fieldSlen (w : Word) : BitVec 5 := w.extractLsb' 22 5

/-- `PLEN = W[31:27]` (30_encoding.md R96). -/
def fieldPlen (w : Word) : BitVec 5 := w.extractLsb' 27 5

/-- `REG = W[15:8]` (30_encoding.md R97). -/
def fieldReg (w : Word) : Byte := w.extractLsb' 8 8

/-- The bits a row's format requires to be 0 are 0 (30_encoding.md R92 to R97): all of `W[31:8]` for format N, none
for L and B, `W[31:12]` for V, `W[31:9]` for C, `W[31:16]` for R. -/
def reservedZero (op : Opcode) (w : Word) : Bool :=
  match op with
  | .kfPermute => w.extractLsb' 8 24 == 0
  | .spInit => w.extractLsb' 12 20 == 0
  | .spReset => w.extractLsb' 8 24 == 0
  | .spAbsorb => true
  | .spFinalize => w.extractLsb' 8 24 == 0
  | .spSqueeze => true
  | .spDigest => w.extractLsb' 8 24 == 0
  | .b2bCompress => w.extractLsb' 9 23 == 0
  | .b2sCompress => w.extractLsb' 9 23 == 0
  | .b2bInit => true
  | .b2sInit => true
  | .b2cReset => w.extractLsb' 8 24 == 0
  | .b2cUpdate => true
  | .b2cFinal => w.extractLsb' 8 24 == 0
  | .rdreg => w.extractLsb' 16 16 == 0

/-- The length of the payload, fixed by W alone (30_encoding.md R99). -/
def payloadLength (op : Opcode) (w : Word) : Nat :=
  match op with
  | .kfPermute => 200
  | .spInit => 0
  | .spReset => 0
  | .spAbsorb => (fieldLen w).toNat
  | .spFinalize => 0
  | .spSqueeze => 0
  | .spDigest => 0
  | .b2bCompress => 208
  | .b2sCompress => 104
  | .b2bInit => (fieldKlen w).toNat + (fieldSlen w).toNat + (fieldPlen w).toNat
  | .b2sInit => (fieldKlen w).toNat + (fieldSlen w).toNat + (fieldPlen w).toNat
  | .b2cReset => 0
  | .b2cUpdate => (fieldLen w).toNat
  | .b2cFinal => 0
  | .rdreg => 0

/-- The instruction of a row, from the fields of the word and the payload (30_encoding.md R100). -/
def buildInstr (op : Opcode) (w : Word) (s : List Byte) : Except Illegal Instr :=
  match op with
  | .kfPermute => .ok (.kfPermute (Machine.lanesOfBytes s))
  | .spInit =>
    match SpVar.ofId? (fieldVar w) with
    | some v => .ok (.spInit v)
    | none => .error .variant
  | .spReset => .ok .spReset
  | .spAbsorb => .ok (.spAbsorb s)
  | .spFinalize => .ok .spFinalize
  | .spSqueeze => .ok (.spSqueeze (fieldLen w))
  | .spDigest => .ok .spDigest
  | .b2bCompress =>
    .ok (.b2bCompress (fieldLast w) (Machine.compressH 64 s) (Machine.compressM 64 s) (Machine.compressT0 64 s)
      (Machine.compressT1 64 s))
  | .b2sCompress =>
    .ok (.b2sCompress (fieldLast w) (Machine.compressH 32 s) (Machine.compressM 32 s) (Machine.compressT0 32 s)
      (Machine.compressT1 32 s))
  | .b2bInit =>
    .ok (.b2bInit (fieldDlen w) (Machine.initKey s (fieldKlen w).toNat)
      (Machine.initSalt s (fieldKlen w).toNat (fieldSlen w).toNat)
      (Machine.initPers s (fieldKlen w).toNat (fieldSlen w).toNat (fieldPlen w).toNat))
  | .b2sInit =>
    .ok (.b2sInit (fieldDlen w) (Machine.initKey s (fieldKlen w).toNat)
      (Machine.initSalt s (fieldKlen w).toNat (fieldSlen w).toNat)
      (Machine.initPers s (fieldKlen w).toNat (fieldSlen w).toNat (fieldPlen w).toNat))
  | .b2cReset => .ok .b2cReset
  | .b2cUpdate => .ok (.b2cUpdate s)
  | .b2cFinal => .ok .b2cFinal
  | .rdreg =>
    match RdReg.ofNumber? (fieldReg w) with
    | some r => .ok (.rdreg r)
    | none => .error .register

/-- The decoder: a command is one of the fifteen or illegal in one of the ways (a) to (e) of 30_encoding.md R101. It
reads no state (R101, 60_exceptions.md R276). -/
def decode (c : Command) : Except Illegal Instr :=
  match Opcode.ofByte? (fieldOp c.word) with
  | none => .error .opcode
  | some op =>
    if reservedZero op c.word then
      if c.payload.length = payloadLength op c.word then buildInstr op c.word c.payload
      else .error .payloadLength
    else .error .reservedBits

/-- Format N: `W = OP` (30_encoding.md R92). -/
def formatN (op : Opcode) : Word := op.code.setWidth 32

/-- Format L: `W = OP | LEN << 8` (30_encoding.md R93). -/
def formatL (op : Opcode) (len : BitVec 24) : Word := op.code.setWidth 32 ||| len.setWidth 32 <<< 8

/-- Format V: `W = OP | VAR << 8` (30_encoding.md R94). -/
def formatV (op : Opcode) (v : BitVec 4) : Word := op.code.setWidth 32 ||| v.setWidth 32 <<< 8

/-- Format C: `W = OP | LAST << 8` (30_encoding.md R95). -/
def formatC (op : Opcode) (last : Bool) : Word := op.code.setWidth 32 ||| (BitVec.ofBool last).setWidth 32 <<< 8

/-- Format B: `W = OP | DLEN << 8 | KLEN << 15 | SLEN << 22 | PLEN << 27` (30_encoding.md R96). -/
def formatB (op : Opcode) (dlen klen : BitVec 7) (slen plen : BitVec 5) : Word :=
  op.code.setWidth 32 ||| dlen.setWidth 32 <<< 8 ||| klen.setWidth 32 <<< 15 ||| slen.setWidth 32 <<< 22 |||
    plen.setWidth 32 <<< 27

/-- Format R: `W = OP | REG << 8` (30_encoding.md R97). -/
def formatR (op : Opcode) (reg : Byte) : Word := op.code.setWidth 32 ||| reg.setWidth 32 <<< 8

/-- The command of an instruction (30_encoding.md R92 to R100); meant for well-formed instructions, whose lengths fit
their fields. -/
def encode (i : Instr) : Command :=
  match i with
  | .kfPermute a => ⟨formatN .kfPermute, Machine.bytesOfLanes a⟩
  | .spInit v => ⟨formatV .spInit v.id, []⟩
  | .spReset => ⟨formatN .spReset, []⟩
  | .spAbsorb msg => ⟨formatL .spAbsorb (BitVec.ofNat 24 msg.length), msg⟩
  | .spFinalize => ⟨formatN .spFinalize, []⟩
  | .spSqueeze n => ⟨formatL .spSqueeze n, []⟩
  | .spDigest => ⟨formatN .spDigest, []⟩
  | .b2bCompress last h m t0 t1 => ⟨formatC .b2bCompress last, Machine.compressPayload h m t0 t1⟩
  | .b2sCompress last h m t0 t1 => ⟨formatC .b2sCompress last, Machine.compressPayload h m t0 t1⟩
  | .b2bInit dlen key salt pers =>
    ⟨formatB .b2bInit dlen (BitVec.ofNat 7 key.length) (BitVec.ofNat 5 salt.length) (BitVec.ofNat 5 pers.length),
      key ++ salt ++ pers⟩
  | .b2sInit dlen key salt pers =>
    ⟨formatB .b2sInit dlen (BitVec.ofNat 7 key.length) (BitVec.ofNat 5 salt.length) (BitVec.ofNat 5 pers.length),
      key ++ salt ++ pers⟩
  | .b2cReset => ⟨formatN .b2cReset, []⟩
  | .b2cUpdate msg => ⟨formatL .b2cUpdate (BitVec.ofNat 24 msg.length), msg⟩
  | .b2cFinal => ⟨formatN .b2cFinal, []⟩
  | .rdreg r => ⟨formatR .rdreg r.number, []⟩

/-- The command a table word stands for: W holds the low `nbits` bits of `w`, and the payload is as many zero bytes as
W asks for (30_encoding.md R99; none where `OP` is unassigned). W is delivered as an integer, so there is no byte
order to choose (R90). -/
def tableCommand (nbits w : Nat) : Command :=
  let word : Word := BitVec.ofNat 32 (w % 2 ^ nbits)
  match Opcode.ofByte? (fieldOp word) with
  | none => ⟨word, []⟩
  | some op => ⟨word, Machine.zeros (payloadLength op word)⟩

/-- What the decoder reads from a table word: none where it refuses. -/
def decodeTableWord (nbits w : Nat) : Option Instr :=
  match decode (tableCommand nbits w) with
  | .ok i => some i
  | .error _ => none

end Sys2Proof
end

