-- ==== Sys2Proof/Machine/Fetch.lean ====
section
/-! DEFINITION. Taking the next command from the host's stream (20_memory.md R75) and the state before it runs. -/

namespace Sys2Proof.Machine

/-- Put a command at the head of the host's stream: it is the next one delivered. -/
def State.deliver (s : State) (c : Command) : State := { s with commands := c :: s.commands }

/-- The state after the host has delivered a command, before it is executed: `rest` is still to come. -/
def State.taking (s : State) (rest : List Command) : State := { s with commands := rest }

end Sys2Proof.Machine
end

