-- ==== Sys2Proof/Machine/Step.lean ====
section
/-! DEFINITION. One step: the host's next command, decoded and executed (00_scope.md R5, 20_memory.md R70, R75). -/

namespace Sys2Proof.Machine

/-- Deliver the next command and execute it: an illegal one is answered `IllegalCommand` (60_exceptions.md R275),
any other by its own rule. With no command left the core waits (70_reset_and_hazards.md R301; DESIGN CHOICE, log
entry 4: waiting is a step that changes nothing). -/
def step (s : State) : Host.Outcome State Fault Refusal :=
  match s.commands with
  | [] => .next s
  | c :: rest =>
    match decode c with
    | .ok i => exec i (s.taking rest)
    | .error _ => raise .illegalCommand (s.taking rest)

/-- The state in which the next command delivered is the table word's, with the zero payload the word asks for. The
hardware fetches nothing and stores no program (10_state.md R23): the command is put at the head of the host's
stream (log entry 2). -/
def State.withFetchWord (s : State) (nbits w : Nat) : State := s.deliver (tableCommand nbits w)

end Sys2Proof.Machine
end

