-- ==== Sys2Proof/Safety.lean ====
section
/-! DEFINITION. What holds of a core between commands (10_state.md R28, R35), and when a run is successful
(70_reset_and_hazards.md R309). -/

namespace Sys2Proof.Machine

/-- The sponge invariants between commands (10_state.md R28). -/
def SpRegs.Inv (r : SpRegs) : Prop :=
  r.buf.length < r.var.rate ∧
  (r.phase = .squeezing → r.buf = [] ∧ r.sqOff ≤ r.var.rate) ∧
  (r.phase = .absorbing → r.sqOff = 0)

/-- The sponge invariants, asked only of a configured sponge (10_state.md R28). -/
def SpBlock.Inv : SpBlock → Prop
  | .unconfigured => True
  | .configured r => r.Inv

/-- The controller invariants between commands (10_state.md R30, R35): the parameter registers are within bounds, the
buffer holds at most a block, and before finalization the counter is a multiple of the block size and the buffer is
empty only in the state `InitState()` leaves without a key, no message byte having been taken in. -/
def B2Regs.Inv {w : Nat} (p : B2Params w) (r : B2Regs w) : Prop :=
  (1 ≤ r.dlen.toNat ∧ r.dlen.toNat ≤ p.maxDlen) ∧
  (r.klen.toNat ≤ p.maxKlen ∧ r.key.length = r.klen.toNat) ∧
  (r.salt.length = p.saltLen ∧ r.pers.length = p.saltLen) ∧
  r.buf.length ≤ blockBytes w ∧
  (r.phase.open = true → r.t.toNat % blockBytes w = 0 ∧
    (r.buf = [] → r.klen = 0 ∧ r.t = 0 ∧ r.h = (r.initState p).h))

/-- The controller invariants, asked only of a configured controller (10_state.md R35). -/
def B2Block.Inv : B2Block → Prop
  | .unconfigured => True
  | .blake2b r => r.Inv paramsB
  | .blake2s r => r.Inv paramsS

/-- A response holds output only with `OK` (30_encoding.md R90), and never the status nothing raises (60_exceptions.md
R274). -/
def Response.Inv (r : Response) : Prop := r.status ≠ .invariantViolation ∧ (r.status ≠ .ok → r.out = [])

/-- What holds of a core and its responses between commands. -/
def State.Inv (s : State) : Prop := s.sp.Inv ∧ s.b2.Inv ∧ ∀ r ∈ s.responses, r.Inv

/-- A run is successful when every status is `OK` (70_reset_and_hazards.md R309). -/
def State.successful (s : State) : Prop := ∀ r ∈ s.responses, r.status = .ok

end Sys2Proof.Machine
end

