-- ==== Sys2Proof/Certificates/Slice0/Reference.lean ====
section
/-! DEFINITION. What the statements compare the machine with: the spec's tables and whole-message functions, written
apart from the meanings. -/

namespace Sys2Proof.Reference

open Sys2Proof.Machine

/-- Execute commands one after another (70_reset_and_hazards.md R309). -/
def execAll : List Instr → State → Host.Outcome State Fault Refusal
  | [], s => .next s
  | i :: is, s =>
    match exec i s with
    | .next t => execAll is t
    | .fault f => .fault f
    | .refused r => .refused r

/-- The state before a command was executed, with one response more: what an error leaves (60_exceptions.md R273). -/
def answered (s : State) (st : Status) (out : List Byte) : State :=
  { s with responses := s.responses ++ [⟨st, out⟩] }

/-- The state with its sponge context replaced, every other field as it is. -/
def withSp (s : State) (r : SpRegs) : State := { s with sp := .configured r }

/-- The state with its streaming context replaced by a BLAKE2b one, every other field as it is. -/
def withB2b (s : State) (r : B2Regs 64) : State := { s with b2 := .blake2b r }

/-- The state with its streaming context replaced by a BLAKE2s one, every other field as it is. -/
def withB2s (s : State) (r : B2Regs 32) : State := { s with b2 := .blake2s r }

/-! The opcode map and the illegal commands. -/

/-- The fifteen opcodes (30_encoding.md R98). -/
def opcodes : List Nat := [0x01, 0x10, 0x11, 0x12, 0x13, 0x14, 0x15, 0x20, 0x21, 0x30, 0x31, 0x32, 0x33, 0x34, 0x40]

/-- The bits above `OP` that the format of an opcode requires to be 0, as a mask of W (30_encoding.md R92 to R97). -/
def reservedMask (op : Nat) : Word :=
  if op ∈ [0x01, 0x11, 0x13, 0x15, 0x32, 0x34] then 0xFFFFFF00
  else if op = 0x10 then 0xFFFFF000
  else if op ∈ [0x20, 0x21] then 0xFFFFFE00
  else if op = 0x40 then 0xFFFF0000
  else 0

/-- The payload length a word fixes (30_encoding.md R99), the fields read off as numbers. -/
def requiredLength (w : Nat) : Nat :=
  if w % 256 = 0x01 then 200
  else if w % 256 ∈ [0x12, 0x33] then w / 2 ^ 8
  else if w % 256 = 0x20 then 208
  else if w % 256 = 0x21 then 104
  else if w % 256 ∈ [0x30, 0x31] then w / 2 ^ 15 % 2 ^ 7 + w / 2 ^ 22 % 2 ^ 5 + w / 2 ^ 27
  else 0

/-- A command is illegal: the cases (a) to (e) of 30_encoding.md R101. -/
def illegal (c : Command) : Prop :=
  c.word.toNat % 256 ∉ opcodes ∨
  c.word &&& reservedMask (c.word.toNat % 256) ≠ 0 ∨
  (c.word.toNat % 256 = 0x10 ∧ 6 ≤ c.word.toNat / 2 ^ 8 % 2 ^ 4) ∨
  (c.word.toNat % 256 = 0x40 ∧ c.word.toNat / 2 ^ 8 % 2 ^ 8 ∉ [0x00, 0x10, 0x11, 0x12, 0x20, 0x21, 0x22]) ∨
  c.payload.length ≠ requiredLength c.word.toNat

/-! The families and the phase tables. -/

/-- The commands of the sponge (10_state.md R20). -/
def isSponge : Instr → Bool
  | .kfPermute _ => false
  | .spInit _ => true
  | .spReset => true
  | .spAbsorb _ => true
  | .spFinalize => true
  | .spSqueeze _ => true
  | .spDigest => true
  | .b2bCompress _ _ _ _ _ => false
  | .b2sCompress _ _ _ _ _ => false
  | .b2bInit _ _ _ _ => false
  | .b2sInit _ _ _ _ => false
  | .b2cReset => false
  | .b2cUpdate _ => false
  | .b2cFinal => false
  | .rdreg _ => false

/-- The commands of the streaming controller (10_state.md R20). -/
def isStream : Instr → Bool
  | .kfPermute _ => false
  | .spInit _ => false
  | .spReset => false
  | .spAbsorb _ => false
  | .spFinalize => false
  | .spSqueeze _ => false
  | .spDigest => false
  | .b2bCompress _ _ _ _ _ => false
  | .b2sCompress _ _ _ _ _ => false
  | .b2bInit _ _ _ _ => true
  | .b2sInit _ _ _ _ => true
  | .b2cReset => true
  | .b2cUpdate _ => true
  | .b2cFinal => true
  | .rdreg _ => false

/-- The pure commands, which read and write no register (10_state.md R20). -/
def isPure : Instr → Bool
  | .kfPermute _ => true
  | .spInit _ => false
  | .spReset => false
  | .spAbsorb _ => false
  | .spFinalize => false
  | .spSqueeze _ => false
  | .spDigest => false
  | .b2bCompress _ _ _ _ _ => true
  | .b2sCompress _ _ _ _ _ => true
  | .b2bInit _ _ _ _ => false
  | .b2sInit _ _ _ _ => false
  | .b2cReset => false
  | .b2cUpdate _ => false
  | .b2cFinal => false
  | .rdreg _ => false

/-- The commands that construct a BLAKE2 controller. -/
def isB2Init : Instr → Bool
  | .kfPermute _ => false
  | .spInit _ => false
  | .spReset => false
  | .spAbsorb _ => false
  | .spFinalize => false
  | .spSqueeze _ => false
  | .spDigest => false
  | .b2bCompress _ _ _ _ _ => false
  | .b2sCompress _ _ _ _ _ => false
  | .b2bInit _ _ _ _ => true
  | .b2sInit _ _ _ _ => true
  | .b2cReset => false
  | .b2cUpdate _ => false
  | .b2cFinal => false
  | .rdreg _ => false

/-- The command that constructs a sponge. -/
def isSpInit : Instr → Bool
  | .kfPermute _ => false
  | .spInit _ => true
  | .spReset => false
  | .spAbsorb _ => false
  | .spFinalize => false
  | .spSqueeze _ => false
  | .spDigest => false
  | .b2bCompress _ _ _ _ _ => false
  | .b2sCompress _ _ _ _ _ => false
  | .b2bInit _ _ _ _ => false
  | .b2sInit _ _ _ _ => false
  | .b2cReset => false
  | .b2cUpdate _ => false
  | .b2cFinal => false
  | .rdreg _ => false

/-- The variant of a sponge is a SHAKE variant; false while there is none. -/
def isShake : SpBlock → Bool
  | .unconfigured => false
  | .configured r => r.var = .shake128 || r.var = .shake256

/-- The table of 41_sponge.md R161: the phase after a command, or none for `SequencingError`. -/
def spPhaseAfter (i : Instr) (phase : BitVec 2) (shake : Bool) : Option (BitVec 2) :=
  match i with
  | .kfPermute _ => some phase
  | .spInit _ => some 1
  | .spReset => if phase = 0 then none else some 1
  | .spAbsorb _ => if phase = 1 then some 1 else none
  | .spFinalize => if phase = 1 then some 2 else none
  | .spSqueeze _ => if phase = 2 ∧ shake = true then some 2 else none
  | .spDigest => if phase = 1 ∧ shake = false then some 2 else none
  | .b2bCompress _ _ _ _ _ => some phase
  | .b2sCompress _ _ _ _ _ => some phase
  | .b2bInit _ _ _ _ => some phase
  | .b2sInit _ _ _ _ => some phase
  | .b2cReset => some phase
  | .b2cUpdate _ => some phase
  | .b2cFinal => some phase
  | .rdreg _ => some phase

/-- The limits of 43_blake2_streaming.md R224, (64, 64, 16) or (32, 32, 8). -/
def legalConstruction (maxd maxk sp : Nat) (dlen : BitVec 7) (key salt pers : List Byte) : Prop :=
  1 ≤ dlen.toNat ∧ dlen.toNat ≤ maxd ∧ key.length ≤ maxk ∧ (salt.length = 0 ∨ salt.length = sp) ∧
    (pers.length = 0 ∨ pers.length = sp)

/-- `ConfigurationError` is raised: 60_exceptions.md R271. -/
def configurationCase : Instr → Prop
  | .kfPermute _ => False
  | .spInit _ => False
  | .spReset => False
  | .spAbsorb _ => False
  | .spFinalize => False
  | .spSqueeze _ => False
  | .spDigest => False
  | .b2bCompress _ _ _ _ _ => False
  | .b2sCompress _ _ _ _ _ => False
  | .b2bInit dlen key salt pers => ¬ legalConstruction 64 64 16 dlen key salt pers
  | .b2sInit dlen key salt pers => ¬ legalConstruction 32 32 8 dlen key salt pers
  | .b2cReset => False
  | .b2cUpdate _ => False
  | .b2cFinal => False
  | .rdreg _ => False

/-- `SequencingError` is raised: the table of 60_exceptions.md R272. -/
def sequencingCase (i : Instr) (s : State) : Prop :=
  match i with
  | .kfPermute _ => False
  | .spInit _ => False
  | .spReset => s.sp.phaseCode = 0
  | .spAbsorb _ => s.sp.phaseCode = 2 ∨ s.sp.phaseCode = 0
  | .spFinalize => s.sp.phaseCode = 2 ∨ s.sp.phaseCode = 0
  | .spSqueeze _ => isShake s.sp = false ∨ s.sp.phaseCode = 1 ∨ s.sp.phaseCode = 0
  | .spDigest => s.sp.phaseCode = 2 ∨ isShake s.sp = true ∨ s.sp.phaseCode = 0
  | .b2bCompress _ _ _ _ _ => False
  | .b2sCompress _ _ _ _ _ => False
  | .b2bInit _ _ _ _ => False
  | .b2sInit _ _ _ _ => False
  | .b2cReset => s.b2.phaseCode = 0
  | .b2cUpdate _ => s.b2.phaseCode = 3 ∨ s.b2.phaseCode = 0
  | .b2cFinal => s.b2.phaseCode = 3 ∨ s.b2.phaseCode = 0
  | .rdreg _ => False

/-- The table of 43_blake2_streaming.md R231: the phase after a command with valid parameters, or none for
`SequencingError`. -/
def b2PhaseAfter (i : Instr) (phase : BitVec 2) : Option (BitVec 2) :=
  match i with
  | .kfPermute _ => some phase
  | .spInit _ => some phase
  | .spReset => some phase
  | .spAbsorb _ => some phase
  | .spFinalize => some phase
  | .spSqueeze _ => some phase
  | .spDigest => some phase
  | .b2bCompress _ _ _ _ _ => some phase
  | .b2sCompress _ _ _ _ _ => some phase
  | .b2bInit _ _ _ _ => some 1
  | .b2sInit _ _ _ _ => some 1
  | .b2cReset => if phase = 0 then none else some 1
  | .b2cUpdate _ => if phase = 1 ∨ phase = 2 then some 2 else none
  | .b2cFinal => if phase = 1 ∨ phase = 2 then some 3 else none
  | .rdreg _ => some phase

/-- What the host can see of the sponge through `RDREG` (10_state.md R38): phase and variant. -/
def spVisible : SpBlock → Option (SpPhase × SpVar)
  | .unconfigured => none
  | .configured r => some (r.phase, r.var)

/-- What the host can see of the controller through `RDREG` (10_state.md R38): variant, phase, digest and key
length. -/
def b2Visible : B2Block → Option (Nat × B2Phase × BitVec 7 × BitVec 7)
  | .unconfigured => none
  | .blake2b r => some (0, r.phase, r.dlen, r.klen)
  | .blake2s r => some (1, r.phase, r.dlen, r.klen)

/-! Keccak. -/

/-- `rotl_w(v, n)` as 00_scope.md R9 writes it. -/
def rotl64 (v : Lane) (n : Nat) : Lane :=
  BitVec.ofNat 64 (if n = 0 then v.toNat else v.toNat * 2 ^ n + v.toNat / 2 ^ (64 - n))

/-- The walk of 40_keccak_f1600.md R123: after t moves from (1, 0), each to (y, 2x + 3y). -/
def rhoWalk : Nat → Nat × Nat
  | 0 => (1, 0)
  | t + 1 => ((rhoWalk t).2, (2 * (rhoWalk t).1 + 3 * (rhoWalk t).2) % 5)

/-- The shift register of 40_keccak_f1600.md R126 after t moves. -/
def lfsr : Nat → Nat
  | 0 => 1
  | t + 1 => if 128 ≤ lfsr t then (2 * lfsr t) ^^^ 0x171 else 2 * lfsr t

/-- The round constant of round r by 40_keccak_f1600.md R126: bit 2^j − 1 is `rc(j + 7r)`, the other bits are 0. -/
def lfsrConstant (r : Nat) : Nat := ((List.range 7).map fun j => lfsr (j + 7 * r) % 2 * 2 ^ (2 ^ j - 1)).sum

/-! The sponge function of a whole message (41_sponge.md R162 (d)). -/

/-- The first k blocks of n bytes. -/
def blocks (n k : Nat) (s : List Byte) : List (List Byte) := (List.range k).map fun i => slice s (n * i) n

/-- Byte i of the block `PadBlock(B, suffix, rate)` (41_sponge.md R152). -/
def padByte (buf : List Byte) (suffix : Byte) (rate i : Nat) : Byte :=
  (if i < buf.length then buf.getD i 0 else if i = buf.length then suffix else 0) ^^^
    (if i = rate - 1 then 0x80 else 0)

/-- Exclusive-or a block, given byte by byte, into the rate lanes (20_memory.md R63): byte 8j + k of the block is bits
8k+7 .. 8k of lane j. -/
def xorBytes (rate : Nat) (a : Lanes) (p : Nat → Byte) : Lanes :=
  Vector.ofFn fun j =>
    if j.val < rate / 8 then
      a[j] ^^^ (p (8 * j.val + 7) ++ p (8 * j.val + 6) ++ p (8 * j.val + 5) ++ p (8 * j.val + 4) ++
        p (8 * j.val + 3) ++ p (8 * j.val + 2) ++ p (8 * j.val + 1) ++ p (8 * j.val) : BitVec 64)
    else a[j]

/-- M ‖ pad: its length is the least multiple of `rate` greater than `len(M)` (41_sponge.md R162 (d), R152). -/
def padded (v : SpVar) (m : List Byte) : List Byte :=
  (List.range (v.rate * (m.length / v.rate + 1))).map
    (padByte m v.suffix (v.rate * (m.length / v.rate + 1)))

/-- The lanes after the padded message is absorbed from the zero state (41_sponge.md R162 (d)). -/
def spongeState (v : SpVar) (m : List Byte) : Lanes :=
  (blocks v.rate (m.length / v.rate + 1) (padded v m)).foldl
    (fun a p => keccakF (xorBytes v.rate a fun i => p.getD i 0)) (Vector.replicate 25 0)

/-- Byte o of the little-endian serialization of the lanes (10_state.md R29). -/
def serialByte (a : Lanes) (o : Nat) : Byte := BitVec.ofNat 8 ((a.toList.getD (o / 8) 0).toNat / 2 ^ (8 * (o % 8)))

/-- The first n bytes of the output stream: `rate` bytes of each state, `KeccakF` between them (41_sponge.md R162
(d)). -/
def spongeOut (v : SpVar) (m : List Byte) (n : Nat) : List Byte :=
  (List.range n).map fun k => serialByte (keccakF^[k / v.rate] (spongeState v m)) (k % v.rate)

/-! BLAKE2: rotation and G (00_scope.md R9, 42_blake2_compression.md R194). -/

/-- `rotr_w(v, n)` as 00_scope.md R9 writes it: a left rotation by (w − n) mod w. -/
def rotr {w : Nat} (v : BitVec w) (n : Nat) : BitVec w :=
  BitVec.ofNat w
    (if (w - n) % w = 0 then v.toNat
      else v.toNat * 2 ^ ((w - n) % w) + v.toNat / 2 ^ (w - (w - n) % w))

/-- The words G leaves in slots a, b, c, d, for rotation amounts R1 to R4 (42_blake2_compression.md R194), from the words
it finds there. -/
def gResult {w : Nat} (r1 r2 r3 r4 : Nat) (a b c d x y : BitVec w) : BitVec w × BitVec w × BitVec w × BitVec w :=
  let a1 := a + b + x
  let d1 := rotr (d ^^^ a1) r1
  let c1 := c + d1
  let b1 := rotr (b ^^^ c1) r2
  let a2 := a1 + b1 + y
  let d2 := rotr (d1 ^^^ a2) r3
  let c2 := c1 + d2
  (a2, rotr (b1 ^^^ c2) r4, c2, d2)

/-! BLAKE2 of a whole message (43_blake2_streaming.md R232 (b)). -/

/-- The low counter word of a count of bytes (20_memory.md R67). -/
def countLow (w n : Nat) : BitVec w := BitVec.ofNat w (n % 2 ^ w)

/-- The high counter word. -/
def countHigh (w n : Nat) : BitVec w := BitVec.ofNat w (n / 2 ^ w)

/-- IV xor parameter block, word by word (43_blake2_streaming.md R221, R222): word 0 holds the lengths, fanout and
depth, words 4 and 5 the salt, words 6 and 7 the personalization, the others nothing; this is so for both variants. An
absent salt or personalization contributes zero. -/
def chainStart {w : Nat} (p : B2Params w) (dlen klen : Nat) (salt pers : List Byte) : Vector (BitVec w) 8 :=
  #v[p.iv[0] ^^^ BitVec.ofNat w (0x01010000 + 2 ^ 8 * klen + dlen), p.iv[1], p.iv[2], p.iv[3],
    p.iv[4] ^^^ leWord w (salt.take (w / 8)), p.iv[5] ^^^ leWord w (salt.drop (w / 8)),
    p.iv[6] ^^^ leWord w (pers.take (w / 8)), p.iv[7] ^^^ leWord w (pers.drop (w / 8))]

/-- The key block, present only with a key (43_blake2_streaming.md R223). -/
def keyBlock (w : Nat) (key : List Byte) : List Byte :=
  if key = [] then [] else key ++ List.replicate (blockBytes w - key.length) 0

/-- The chain value after k interior blocks of the data, `count` bytes having been counted before them
(43_blake2_streaming.md R228, R230). -/
def chainAfter {w : Nat} (p : B2Params w) (count : Nat) (h : Vector (BitVec w) 8) (d : List Byte) :
    Nat → Vector (BitVec w) 8
  | 0 => h
  | k + 1 =>
    compressF p (chainAfter p count h d k) (wordsOfBytes w 16 (slice d (blockBytes w * k) (blockBytes w)))
      (countLow w (count + blockBytes w * (k + 1))) (countHigh w (count + blockBytes w * (k + 1))) false

/-- How many blocks of data of length n are interior: all but the last, and none where there is no data
(43_blake2_streaming.md R228, R232 (b)). -/
def interiorBlocks (w n : Nat) : Nat := (n - 1) / blockBytes w

/-- The chain value of data D from h0 (43_blake2_streaming.md R232 (b)): the interior blocks, then the last one
zero-padded, with `last` true and the counter the length of D. -/
def b2Chain {w : Nat} (p : B2Params w) (h0 : Vector (BitVec w) 8) (d : List Byte) : Vector (BitVec w) 8 :=
  let k := interiorBlocks w d.length
  let last := d.drop (blockBytes w * k)
  compressF p (chainAfter p 0 h0 d k)
    (wordsOfBytes w 16 (last ++ List.replicate (blockBytes w - last.length) 0))
    (countLow w d.length) (countHigh w d.length) true

/-- The digest of a message under construction parameters (43_blake2_streaming.md R232 (b), R229). -/
def b2Digest {w : Nat} (p : B2Params w) (dlen : BitVec 7) (key salt pers msg : List Byte) : List Byte :=
  (bytesOfWords (b2Chain p (chainStart p dlen.toNat key.length salt pers) (keyBlock w key ++ msg))).take dlen.toNat

end Sys2Proof.Reference
end

