-- ==== Sys2Proof/Certificates/Slice0/Obligations.lean ====
section
/-! DEFINITION. The statements for the provers, each with the rules of the spec it formalises. -/

open Sys2Proof Sys2Proof.Machine Sys2Proof.Reference

/-! ## Encoding -/

/-- Decoding the encoding of a well-formed instruction gives it back, every operand at every value (30_encoding.md R92
to R100). -/
def Obligations.DecodeOfEncode : Prop :=
  ∀ i : Instr, i.wellFormed = true → decode (encode i) = .ok i

/-- A command that decodes is the encoding of the instruction it decodes to: no bit of the word or the payload is
dropped and none is accepted twice (30_encoding.md R91, R98 to R101). -/
def Obligations.EncodeOfDecode : Prop :=
  ∀ (c : Command) (i : Instr), decode c = .ok i → i.wellFormed = true ∧ encode i = c

/-- The illegal commands are exactly those of 30_encoding.md R101, and an illegal one is answered `IllegalCommand` with
empty output and no change of state, whatever the state. -/
def Obligations.IllegalCommandsExactly : Prop :=
  ∀ (s : State) (c : Command) (rest : List Command), s.commands = c :: rest →
    (illegal c ↔ step s = .next (answered { s with commands := rest } .illegalCommand []))

/-- A few words of 30_encoding.md R98 and its formats, read field by field. -/
def Obligations.ReferenceWordsDecode : Prop :=
  decode ⟨0x00000510, []⟩ = .ok (.spInit .shake256) ∧
  decode ⟨0x00000312, [0x61, 0x62, 0x63]⟩ = .ok (.spAbsorb [0x61, 0x62, 0x63]) ∧
  decode ⟨0x00019014, []⟩ = .ok (.spSqueeze 400) ∧
  decode ⟨0x00004030, []⟩ = .ok (.b2bInit 64 [] [] []) ∧
  decode ⟨0x00002240, []⟩ = .ok (.rdreg .b2Klen) ∧
  decode ⟨0x00000034, []⟩ = .ok .b2cFinal ∧
  decode ⟨0x00000610, []⟩ = .error .variant ∧
  decode ⟨0x00000111, []⟩ = .error .reservedBits

/-! ## The step and whole-machine rules -/

/-- A step runs the decoded command on the state in which it has been taken from the host's stream, and does nothing
else (00_scope.md R5, 20_memory.md R75). -/
def Obligations.StepRunsTheDecodedCommand : Prop :=
  ∀ (s : State) (c : Command) (rest : List Command) (i : Instr), s.commands = c :: rest → decode c = .ok i →
    step s = exec i { s with commands := rest }

/-- With no command left the core waits: the model's choice, log entry 4 (70_reset_and_hazards.md R301 says that it
waits, not that waiting is a step). -/
def Obligations.StepWaitsWithoutCommand : Prop :=
  ∀ s : State, s.commands = [] → step s = .next s

/-- Every command, legal or not, is answered with exactly one response, which has output only with `OK`; the responses
given before stay as they were, and no command stops the core (30_encoding.md R90, 20_memory.md R72). -/
def Obligations.EveryCommandGetsOneResponse : Prop :=
  ∀ (s : State) (c : Command) (rest : List Command), s.commands = c :: rest →
    ∃ (t : State) (r : Response), step s = .next t ∧ t.commands = rest ∧ t.responses = s.responses ++ [r] ∧
      (r.status ≠ .ok → r.out = [])

/-- Running the encodings of well-formed commands is executing the commands one after another, the rest of the stream
untouched (70_reset_and_hazards.md R309, 20_memory.md R75). -/
def Obligations.RunOfEncodedCommands : Prop :=
  ∀ (is : List Instr) (s : State) (rest : List Command), (∀ i ∈ is, i.wellFormed = true) →
    Sys2Proof.core.run is.length { s with commands := is.map encode ++ rest } =
      execAll is { s with commands := rest }

/-- A command that ends in an error of any class has no effect: every register of both contexts is as before, and the
response is the code with empty output (60_exceptions.md R273). -/
def Obligations.ErrorsChangeNothing : Prop :=
  ∀ (s t : State) (c : Command) (rest : List Command) (r : Response), s.commands = c :: rest → step s = .next t →
    t.responses = s.responses ++ [r] → r.status ≠ .ok → t = answered { s with commands := rest } r.status []

/-- `SequencingError` is raised exactly in the cases of the table of 60_exceptions.md R272. -/
def Obligations.SequencingErrorExactly : Prop :=
  ∀ (i : Instr) (s t : State) (r : Response), exec i s = .next t → t.responses = s.responses ++ [r] →
    (r.status = .sequencingError ↔ sequencingCase i s)

/-- `ConfigurationError` is raised exactly where the validation of a construction fails (60_exceptions.md R271,
43_blake2_streaming.md R224). -/
def Obligations.ConfigurationErrorExactly : Prop :=
  ∀ (i : Instr) (s t : State) (r : Response), exec i s = .next t → t.responses = s.responses ++ [r] →
    (r.status = .configurationError ↔ configurationCase i)

/-- No step gives the status `InvariantViolation` (60_exceptions.md R274). -/
def Obligations.InvariantViolationNeverGiven : Prop :=
  ∀ (s t : State) (r : Response), step s = .next t → t.responses = s.responses ++ [r] →
    r.status ≠ .invariantViolation

/-- The sponge's phase after every command, or the `SequencingError` that leaves it, is the table of 41_sponge.md
R161. -/
def Obligations.SpongePhaseTable : Prop :=
  ∀ (i : Instr) (s : State),
    match spPhaseAfter i s.sp.phaseCode (isShake s.sp) with
    | some p => ∃ t, exec i s = .next t ∧ t.sp.phaseCode = p
    | none => exec i s = .next (answered s .sequencingError [])

/-- The controller's phase after every command, or the error that leaves it, is the table of 43_blake2_streaming.md
R231. -/
def Obligations.StreamPhaseTable : Prop :=
  ∀ (i : Instr) (s : State),
    (configurationCase i → exec i s = .next (answered s .configurationError [])) ∧
    (¬ configurationCase i →
      match b2PhaseAfter i s.b2.phaseCode with
      | some p => ∃ t, exec i s = .next t ∧ t.b2.phaseCode = p
      | none => exec i s = .next (answered s .sequencingError []))

/-- The two contexts share nothing: what a sponge command does and answers is a function of the sponge context alone
and leaves the streaming context, a controller command the other way round, a pure command answers the same in every
state and writes nothing, and `RDREG` reads both and writes neither (10_state.md R20). -/
def Obligations.ContextsAreIndependent : Prop :=
  ∀ i : Instr,
    (isSponge i = true → ∃ f : SpBlock → SpBlock × Response, ∀ s : State,
      exec i s = .next { s with sp := (f s.sp).1, responses := s.responses ++ [(f s.sp).2] }) ∧
    (isStream i = true → ∃ f : B2Block → B2Block × Response, ∀ s : State,
      exec i s = .next { s with b2 := (f s.b2).1, responses := s.responses ++ [(f s.b2).2] }) ∧
    (isPure i = true → ∃ r : Response, ∀ s : State, exec i s = .next { s with responses := s.responses ++ [r] }) ∧
    (∀ reg, i = .rdreg reg → ∃ f : SpBlock → B2Block → Response, ∀ s : State,
      exec i s = .next { s with responses := s.responses ++ [f s.sp s.b2] })

/-- No command returns a block to `UNCONFIGURED` (44_system.md R260). -/
def Obligations.NoWayBackToUnconfigured : Prop :=
  ∀ s t : State, step s = .next t →
    (s.sp.phaseCode ≠ 0 → t.sp.phaseCode ≠ 0) ∧ (s.b2.phaseCode ≠ 0 → t.b2.phaseCode ≠ 0)

/-- What `RDREG` answers depends on the phases, the variants and the two lengths alone: lanes, chain value, counter,
buffers, key, salt and personalization are not readable (10_state.md R38). -/
def Obligations.RegisterReadsHideTheRest : Prop :=
  ∀ (reg : RdReg) (s s' : State), spVisible s.sp = spVisible s'.sp → b2Visible s.b2 = b2Visible s'.b2 →
    ∃ r : Response, exec (.rdreg reg) s = .next { s with responses := s.responses ++ [r] } ∧
      exec (.rdreg reg) s' = .next { s' with responses := s'.responses ++ [r] }

/-- Every step keeps the invariants of both contexts and of the responses (10_state.md R28, R35, R30). -/
def Obligations.StepKeepsTheInvariant : Prop :=
  ∀ s t : State, s.Inv → step s = .next t → t.Inv

/-- The invariants hold right after hardware reset (70_reset_and_hazards.md R300, 10_state.md R40). -/
def Obligations.InvariantAtReset : Prop := State.reset.Inv

/-- Hardware reset leaves both blocks `UNCONFIGURED` (70_reset_and_hazards.md R300); that no command waits and no
response has been given is the model's choice, log entries 2 and 3. -/
def Obligations.ResetLeavesBothUnconfigured : Prop :=
  State.reset.sp.phaseCode = 0 ∧ State.reset.b2.phaseCode = 0 ∧ State.reset.commands = [] ∧
    State.reset.responses = []

/-! ## Frames -/

/-- Frame of the sponge commands: the streaming context, the host's stream and the earlier responses are unchanged;
`SP_VAR` is written by `SP.INIT` only; `SP.ABSORB` leaves phase and offset, `SP.SQUEEZE` leaves phase and buffer
(41_sponge.md R155 to R160, "State written"; 10_state.md R24). -/
def Obligations.SpongeFrame : Prop :=
  ∀ (i : Instr) (s t : State), isSponge i = true → exec i s = .next t →
    t.b2 = s.b2 ∧ t.commands = s.commands ∧ (∃ r, t.responses = s.responses ++ [r]) ∧
    ∀ r, s.sp = .configured r → ∃ r', t.sp = .configured r' ∧
      (isSpInit i = false → r'.var = r.var) ∧
      (∀ msg, i = .spAbsorb msg → r'.phase = r.phase ∧ r'.sqOff = r.sqOff) ∧
      (∀ n, i = .spSqueeze n → r'.phase = r.phase ∧ r'.buf = r.buf)

/-- Frame of the controller commands: the sponge context, the host's stream and the earlier responses are unchanged;
the variant and the parameter registers are written by the `INIT` commands only; `B2C.FINAL` leaves the buffer
(43_blake2_streaming.md R225 to R229, "State written"; 10_state.md R30). -/
def Obligations.StreamFrame : Prop :=
  ∀ (i : Instr) (s t : State), isStream i = true → exec i s = .next t →
    t.sp = s.sp ∧ t.commands = s.commands ∧ (∃ r, t.responses = s.responses ++ [r]) ∧
    (isB2Init i = false →
      (s.b2 = .unconfigured → t.b2 = .unconfigured) ∧
      (∀ r, s.b2 = .blake2b r → ∃ r', t.b2 = .blake2b r' ∧ r'.dlen = r.dlen ∧ r'.klen = r.klen ∧ r'.key = r.key ∧
        r'.salt = r.salt ∧ r'.pers = r.pers ∧ (i = .b2cFinal → r'.buf = r.buf)) ∧
      (∀ r, s.b2 = .blake2s r → ∃ r', t.b2 = .blake2s r' ∧ r'.dlen = r.dlen ∧ r'.klen = r.klen ∧ r'.key = r.key ∧
        r'.salt = r.salt ∧ r'.pers = r.pers ∧ (i = .b2cFinal → r'.buf = r.buf)))

/-- Frame of the pure commands and of `RDREG`: nothing but the one response (20_memory.md R71, 44_system.md R261). -/
def Obligations.PureFrame : Prop :=
  ∀ (i : Instr) (s t : State), (isPure i = true ∨ ∃ reg, i = .rdreg reg) → exec i s = .next t →
    ∃ out, t = answered s .ok out

/-! ## Block KF -/

/-- θ lane by lane: the parities of the columns x − 1 and x + 1, the latter rotated left by 1 (40_keccak_f1600.md
R122). -/
def Obligations.ThetaByCoordinates : Prop :=
  ∀ (a : Lanes) (x y : Fin 5),
    (theta a)[x.val + 5 * y.val] = a[x.val + 5 * y.val] ^^^
      (a[(x.val + 4) % 5] ^^^ a[(x.val + 4) % 5 + 5] ^^^ a[(x.val + 4) % 5 + 10] ^^^ a[(x.val + 4) % 5 + 15] ^^^
        a[(x.val + 4) % 5 + 20]) ^^^
      rotl64 (a[(x.val + 1) % 5] ^^^ a[(x.val + 1) % 5 + 5] ^^^ a[(x.val + 1) % 5 + 10] ^^^
        a[(x.val + 1) % 5 + 15] ^^^ a[(x.val + 1) % 5 + 20]) 1

/-- ρ rotates lane (x, y) left by the offset the walk of 40_keccak_f1600.md R123 gives it, and leaves lane 0. -/
def Obligations.RhoByTheWalk : Prop :=
  ∀ a : Lanes, (rho a)[0] = a[0] ∧
    ∀ t : Fin 24, ∃ h : (rhoWalk t.val).1 + 5 * (rhoWalk t.val).2 < 25,
      (rho a)[(rhoWalk t.val).1 + 5 * (rhoWalk t.val).2] =
        rotl64 (a[(rhoWalk t.val).1 + 5 * (rhoWalk t.val).2]) ((t.val + 1) * (t.val + 2) / 2 % 64)

/-- π moves the lane at (x, y) to (y, 2x + 3y) (40_keccak_f1600.md R124). -/
def Obligations.PiMovesLanes : Prop :=
  ∀ (a : Lanes) (x y : Fin 5),
    (pi a)[y.val + 5 * ((2 * x.val + 3 * y.val) % 5)] = a[x.val + 5 * y.val]

/-- χ combines each lane with the next two of its row, the nearer one complemented (40_keccak_f1600.md R125). -/
def Obligations.ChiByCoordinates : Prop :=
  ∀ (a : Lanes) (x y : Fin 5),
    (chi a)[x.val + 5 * y.val] =
      a[x.val + 5 * y.val] ^^^ (~~~a[(x.val + 1) % 5 + 5 * y.val] &&& a[(x.val + 2) % 5 + 5 * y.val])

/-- The round constants are those of the shift register of 40_keccak_f1600.md R126. -/
def Obligations.RoundConstantsAreTheShiftRegisters : Prop :=
  ∀ r : Fin 24, roundConstants[r].toNat = lfsrConstant r.val

/-- `KeccakF` is a bijection of the 2^1600 states (40_keccak_f1600.md R129). -/
def Obligations.KeccakFIsABijection : Prop := Function.Bijective keccakF

/-- `KF.PERMUTE` with any payload of 200 bytes completes in every state: output byte k is byte k mod 8 of lane k div 8
of `KeccakF` of the payload's lanes, and nothing but the response is written (40_keccak_f1600.md R130). -/
def Obligations.KfPermuteResult : Prop :=
  ∀ (s : State) (a : Lanes), ∃ out : List Byte,
    exec (.kfPermute a) s = .next (answered s .ok out) ∧ out = (List.range 200).map (serialByte (keccakF a)) ∧
      lanesOfBytes out = keccakF a

/-! ## Block SP -/

/-- `SP.INIT` completes in every phase and leaves a fresh sponge of its variant (41_sponge.md R155). -/
def Obligations.SpInitResult : Prop :=
  ∀ (v : SpVar) (s : State),
    exec (.spInit v) s = .next (answered
      (withSp s
          { phase := .absorbing, var := v, lanes := Vector.replicate 25 0, buf := [], sqOff := 0 }) .ok [])

/-- `SP.RESET` completes in every phase but `UNCONFIGURED` and leaves what `SP.INIT` of the same variant leaves
(41_sponge.md R156). -/
def Obligations.SpResetResult : Prop :=
  ∀ (s : State) (r : SpRegs), s.sp = .configured r → exec .spReset s = exec (.spInit r.var) s ∧
    exec .spReset s = .next (answered
      (withSp s
          { phase := .absorbing, var := r.var, lanes := Vector.replicate 25 0, buf := [], sqOff := 0 }) .ok [])

/-- `SP.ABSORB` completes in `ABSORBING`. With D the buffer followed by the payload, the ⌊len(D)/rate⌋ whole blocks of
D have been absorbed in order and the rest of D is the buffer (41_sponge.md R157). The premise on the buffer is the
invariant of 10_state.md R28. -/
def Obligations.SpAbsorbResult : Prop :=
  ∀ (msg : List Byte) (s : State) (r : SpRegs), s.sp = .configured r → r.phase = .absorbing →
    r.buf.length < r.var.rate →
    exec (.spAbsorb msg) s = .next (answered
      (withSp s
          { r with
            lanes := (blocks r.var.rate ((r.buf ++ msg).length / r.var.rate) (r.buf ++ msg)).foldl
              (fun a p => keccakF (xorBytes r.var.rate a fun i => p.getD i 0)) r.lanes
            buf := (r.buf ++ msg).drop (r.var.rate * ((r.buf ++ msg).length / r.var.rate)) }) .ok [])

/-- Streaming equivalence of the sponge: absorbing the pieces of a message in order leaves the same sponge as one
`SP.ABSORB` of the whole (41_sponge.md R162 (b), 20_memory.md R68). -/
def Obligations.SpAbsorbStreams : Prop :=
  ∀ (pieces : List (List Byte)) (s : State) (r : SpRegs), s.sp = .configured r → r.phase = .absorbing →
    ∃ t t' : State, execAll (pieces.map .spAbsorb) s = .next t ∧ exec (.spAbsorb pieces.flatten) s = .next t' ∧
      t.sp = t'.sp ∧ t.responses = s.responses ++ List.replicate pieces.length ⟨.ok, []⟩

/-- `SP.FINALIZE` completes in `ABSORBING`, for all six variants: the buffer padded as 41_sponge.md R152 says is
exclusive-ored in, one permutation runs, and the sponge is in `SQUEEZING` with an empty buffer and offset 0
(41_sponge.md R158). The premise on the buffer is the invariant of 10_state.md R28. -/
def Obligations.SpFinalizeResult : Prop :=
  ∀ (s : State) (r : SpRegs), s.sp = .configured r → r.phase = .absorbing → r.buf.length < r.var.rate →
    exec .spFinalize s = .next (answered
      (withSp s
          { phase := .squeezing, var := r.var, buf := [], sqOff := 0,
            lanes := keccakF (xorBytes r.var.rate r.lanes (padByte r.buf r.var.suffix r.var.rate)) }) .ok [])

/-- `SP.SQUEEZE n` completes in `SQUEEZING` on a SHAKE variant: the n bytes from the offset on of the stream in which
each state gives its first `rate` bytes. ⌈(o + n)/rate⌉ − 1 permutations run and the offset ends behind the last byte
given; for n = 0 nothing changes (41_sponge.md R159, R154). The premise on the offset is the invariant of 10_state.md
R28. -/
def Obligations.SpSqueezeResult : Prop :=
  ∀ (n : BitVec 24) (s : State) (r : SpRegs), s.sp = .configured r → r.phase = .squeezing →
    isShake s.sp = true → r.sqOff ≤ r.var.rate →
    exec (.spSqueeze n) s = .next (answered
      (withSp s
          (if n = 0 then r else
            { r with
              lanes := keccakF^[(r.sqOff + n.toNat - 1) / r.var.rate] r.lanes
              sqOff := (r.sqOff + n.toNat - 1) % r.var.rate + 1 })) .ok
      ((List.range n.toNat).map fun k =>
        serialByte (keccakF^[(r.sqOff + k) / r.var.rate] r.lanes) ((r.sqOff + k) % r.var.rate)))

/-- Prefix consistency: squeezing n1 and then n2 bytes gives, concatenated, what squeezing n1 + n2 gives, and leaves the
same sponge (41_sponge.md R162 (c), R159). -/
def Obligations.SpSqueezeContinues : Prop :=
  ∀ (n1 n2 : BitVec 24) (s : State) (r : SpRegs), s.sp = .configured r → r.phase = .squeezing →
    isShake s.sp = true → n1.toNat + n2.toNat < 2 ^ 24 →
    ∃ (t t' : State) (out1 out2 : List Byte), execAll [.spSqueeze n1, .spSqueeze n2] s = .next t ∧
      exec (.spSqueeze (n1 + n2)) s = .next t' ∧ t.sp = t'.sp ∧
      t.responses = s.responses ++ [⟨.ok, out1⟩, ⟨.ok, out2⟩] ∧ out1.length = n1.toNat ∧
      t'.responses = s.responses ++ [⟨.ok, out1 ++ out2⟩]

/-- `SP.DIGEST` completes in `ABSORBING` on a SHA3 variant: the changes of `SP.FINALIZE`, then the first `dlen` bytes of
the first chunk, the offset behind them (41_sponge.md R160). The premise on the buffer is the invariant of 10_state.md
R28. -/
def Obligations.SpDigestResult : Prop :=
  ∀ (s : State) (r : SpRegs) (d : Nat), s.sp = .configured r → r.phase = .absorbing → r.buf.length < r.var.rate →
    r.var.dlen = some d →
    exec .spDigest s = .next (answered
      (withSp s
          { phase := .squeezing, var := r.var, buf := [], sqOff := d,
            lanes := keccakF (xorBytes r.var.rate r.lanes (padByte r.buf r.var.suffix r.var.rate)) }) .ok
      ((bytesOfLanes (keccakF (xorBytes r.var.rate r.lanes (padByte r.buf r.var.suffix r.var.rate)))).take d))

/-- From any state `SP.INIT` of a SHA3 variant, the message in any pieces, `SP.DIGEST`: the digest is the sponge
function of the whole message, pad10*1 padding and all (41_sponge.md R162 (b), (d), R160). -/
def Obligations.Sha3IsTheSpongeFunction : Prop :=
  ∀ (v : SpVar) (d : Nat) (pieces : List (List Byte)) (s : State), v.dlen = some d →
    ∃ t : State, execAll (.spInit v :: pieces.map .spAbsorb ++ [.spDigest]) s = .next t ∧
      t.responses = s.responses ++ List.replicate (pieces.length + 1) ⟨.ok, []⟩ ++
        [⟨.ok, spongeOut v pieces.flatten d⟩]

/-- From any state `SP.INIT` of a SHAKE variant, the message in any pieces, `SP.FINALIZE`, any `SP.SQUEEZE` commands:
their outputs, concatenated, are the sponge function's stream of the whole message (41_sponge.md R162 (b) to (d)). -/
def Obligations.ShakeIsTheSpongeFunction : Prop :=
  ∀ (v : SpVar) (pieces : List (List Byte)) (ns : List (BitVec 24)) (s : State), v.xof = true →
    ∃ (t : State) (outs : List (List Byte)),
      execAll (.spInit v :: pieces.map .spAbsorb ++ .spFinalize :: ns.map .spSqueeze) s = .next t ∧
      t.responses = s.responses ++ List.replicate (pieces.length + 2) ⟨.ok, []⟩ ++ outs.map (⟨.ok, ·⟩) ∧
      outs.map List.length = ns.map BitVec.toNat ∧
      outs.flatten = spongeOut v pieces.flatten (ns.map BitVec.toNat).sum

/-! ## Blocks B2BF and B2SF -/

/-- G wraps: with all four words all ones and x = y = 1 (42_blake2_compression.md R194, its corner case), and the
example of R194 for w = 64. -/
def Obligations.MixGWraps : Prop :=
  (let v := mixG paramsB (Vector.replicate 16 (BitVec.allOnes 64)) 0 4 8 12 1 1
   v[0] = 0 ∧ v[4] = BitVec.allOnes 64 ∧ v[8] = BitVec.allOnes 64 ∧ v[12] = 0) ∧
  (let v := mixG paramsB (Vector.ofFn fun i : Fin 16 => BitVec.ofNat 64 i.val) 0 4 8 12 0x10 0x20
   v[0] = 0x00000C0000001834 ∧ v[4] = 0x3068183018303010 ∧ v[8] = 0x183400180C180008 ∧ v[12] = 0x183400000C180000)

/-- G on any four different slots: the words it leaves there are those of the eight assignments, with the rotation
amounts of the variant, and the other twelve words are as before (42_blake2_compression.md R194, R190). -/
def Obligations.MixGByAssignments : Prop :=
  (∀ (v : Vector (BitVec 64) 16) (a b c d : Fin 16) (x y : BitVec 64), [a, b, c, d].Nodup →
    let v' := mixG paramsB v a b c d x y
    (v'[a], v'[b], v'[c], v'[d]) = gResult 32 24 16 63 v[a] v[b] v[c] v[d] x y ∧
      ∀ i : Fin 16, i ∉ [a, b, c, d] → v'[i] = v[i]) ∧
  (∀ (v : Vector (BitVec 32) 16) (a b c d : Fin 16) (x y : BitVec 32), [a, b, c, d].Nodup →
    let v' := mixG paramsS v a b c d x y
    (v'[a], v'[b], v'[c], v'[d]) = gResult 16 12 8 7 v[a] v[b] v[c] v[d] x y ∧
      ∀ i : Fin 16, i ∉ [a, b, c, d] → v'[i] = v[i])

/-- Two applications of G that touch disjoint words may run in either order, for any words and either variant: so the
four columns of a round, and the four diagonals, may run in any order (42_blake2_compression.md R196). -/
def Obligations.DisjointMixGsCommute : Prop :=
  ∀ (w : Nat) (p : B2Params w) (v : Vector (BitVec w) 16) (a b c d a' b' c' d' : Fin 16) (x y x' y' : BitVec w),
    (∀ i ∈ [a, b, c, d], i ∉ [a', b', c', d']) →
    mixG p (mixG p v a b c d x y) a' b' c' d' x' y' = mixG p (mixG p v a' b' c' d' x' y') a b c d x y

/-- The working vector slot by slot, for any words: chain value, IV, the counter in slots 12 and 13 of every block, the
mask in slot 14 of the last only, slot 15 untouched (42_blake2_compression.md R195). -/
def Obligations.WorkingVectorBySlots : Prop :=
  ∀ (w : Nat) (p : B2Params w) (h : Vector (BitVec w) 8) (t0 t1 : BitVec w) (last : Bool),
    (∀ i : Fin 8, (initVector p h t0 t1 last)[i.val] = h[i]) ∧
    (∀ i : Fin 4, (initVector p h t0 t1 last)[i.val + 8] = p.iv[i.val]) ∧
    (initVector p h t0 t1 last)[12] = p.iv[4] ^^^ t0 ∧ (initVector p h t0 t1 last)[13] = p.iv[5] ^^^ t1 ∧
    (initVector p h t0 t1 last)[14] = (if last = true then ~~~p.iv[6] else p.iv[6]) ∧
    (initVector p h t0 t1 last)[15] = p.iv[7]

/-- `B2B.COMPRESS` completes in every state: the 64 output bytes are the words `h[i] ^ v[i] ^ v[i+8]`, v the working
vector after 12 rounds, little-endian, and nothing but the response is written (42_blake2_compression.md R198,
R197). -/
def Obligations.B2bCompressResult : Prop :=
  ∀ (last : Bool) (h : Vector (BitVec 64) 8) (m : Vector (BitVec 64) 16) (t0 t1 : BitVec 64) (s : State),
    ∃ out : List Byte, exec (.b2bCompress last h m t0 t1) s = .next (answered s .ok out) ∧ out.length = 64 ∧
      ∀ i : Fin 8, leWord 64 (slice out (8 * i.val) 8) =
        h[i] ^^^ (roundsF paramsB m 12 (initVector paramsB h t0 t1 last))[i.val] ^^^
          (roundsF paramsB m 12 (initVector paramsB h t0 t1 last))[i.val + 8]

/-- `B2S.COMPRESS` likewise: 32 output bytes, 10 rounds (42_blake2_compression.md R199, R197). -/
def Obligations.B2sCompressResult : Prop :=
  ∀ (last : Bool) (h : Vector (BitVec 32) 8) (m : Vector (BitVec 32) 16) (t0 t1 : BitVec 32) (s : State),
    ∃ out : List Byte, exec (.b2sCompress last h m t0 t1) s = .next (answered s .ok out) ∧ out.length = 32 ∧
      ∀ i : Fin 8, leWord 32 (slice out (4 * i.val) 4) =
        h[i] ^^^ (roundsF paramsS m 10 (initVector paramsS h t0 t1 last))[i.val] ^^^
          (roundsF paramsS m 10 (initVector paramsS h t0 t1 last))[i.val + 8]

/-! ## Block B2C -/

/-- `B2B.INIT` with valid parameters completes in every phase and writes the whole streaming context: parameters as
given, an absent salt or personalization as zeros, chain value IV xor parameter block, counter 0, the zero-padded key
block in the buffer (43_blake2_streaming.md R225, R221, R223). -/
def Obligations.B2bInitResult : Prop :=
  ∀ (dlen : BitVec 7) (key salt pers : List Byte) (s : State), legalConstruction 64 64 16 dlen key salt pers →
    exec (.b2bInit dlen key salt pers) s = .next (answered
      (withB2b s
          { phase := .initialized, dlen := dlen, klen := BitVec.ofNat 7 key.length, key := key
            salt := if salt = [] then List.replicate 16 0 else salt
            pers := if pers = [] then List.replicate 16 0 else pers
            h := chainStart paramsB dlen.toNat key.length salt pers
            t := 0
            buf := if key = [] then [] else key ++ List.replicate (128 - key.length) 0 }) .ok [])

/-- `B2S.INIT` likewise, with the BLAKE2s limits and layout (43_blake2_streaming.md R226, R222, R223). -/
def Obligations.B2sInitResult : Prop :=
  ∀ (dlen : BitVec 7) (key salt pers : List Byte) (s : State), legalConstruction 32 32 8 dlen key salt pers →
    exec (.b2sInit dlen key salt pers) s = .next (answered
      (withB2s s
          { phase := .initialized, dlen := dlen, klen := BitVec.ofNat 7 key.length, key := key
            salt := if salt = [] then List.replicate 8 0 else salt
            pers := if pers = [] then List.replicate 8 0 else pers
            h := chainStart paramsS dlen.toNat key.length salt pers
            t := 0
            buf := if key = [] then [] else key ++ List.replicate (64 - key.length) 0 }) .ok [])

/-- `B2C.RESET` completes in every phase but `UNCONFIGURED` and runs `InitState()` on the parameter registers as they
are (43_blake2_streaming.md R227, R223). The premises on the parameter registers are invariants of 10_state.md R30,
kept by `Obligations.StepKeepsTheInvariant`. -/
def Obligations.B2cResetResult : Prop :=
  (∀ (s : State) (r : B2Regs 64), s.b2 = .blake2b r → r.key.length = r.klen.toNat → r.salt.length = 16 →
    r.pers.length = 16 →
    exec .b2cReset s = .next (answered
      (withB2b s
          { r with
            phase := .initialized
            h := chainStart paramsB r.dlen.toNat r.klen.toNat r.salt r.pers
            t := 0
            buf := if r.klen = 0 then [] else r.key ++ List.replicate (128 - r.key.length) 0 }) .ok [])) ∧
  (∀ (s : State) (r : B2Regs 32), s.b2 = .blake2s r → r.key.length = r.klen.toNat → r.salt.length = 8 →
    r.pers.length = 8 →
    exec .b2cReset s = .next (answered
      (withB2s s
          { r with
            phase := .initialized
            h := chainStart paramsS r.dlen.toNat r.klen.toNat r.salt r.pers
            t := 0
            buf := if r.klen = 0 then [] else r.key ++ List.replicate (64 - r.key.length) 0 }) .ok []))

/-- Whatever commands other than a construction come after an `INIT`, succeeding or not, `B2C.RESET` returns the
controller to the state right after it, key block included (43_blake2_streaming.md R227, 70_reset_and_hazards.md
R302). -/
def Obligations.B2cResetRestoresTheConstruction : Prop :=
  ∀ (i : Instr) (is : List Instr) (s : State), isB2Init i = true → ¬ configurationCase i →
    (∀ j ∈ is, isB2Init j = false) →
    ∃ t t' : State, exec i s = .next t ∧ execAll (i :: is ++ [.b2cReset]) s = .next t' ∧ t'.b2 = t.b2 ∧
      t.b2.phaseCode = 1

/-- `B2C.UPDATE` completes in `INITIALIZED` and `UPDATING`. With D the buffer followed by the payload, every block of D
but the last has been compressed, the counter advanced by the block size each time, and the rest of D, which is not
empty unless D is, is the buffer: a full block is compressed only when a further byte has come (43_blake2_streaming.md
R228, R230). The premise on the buffer is the invariant of 10_state.md R35. -/
def Obligations.B2cUpdateResult : Prop :=
  (∀ (msg : List Byte) (s : State) (r : B2Regs 64), s.b2 = .blake2b r → r.phase ≠ .finalized →
    r.buf.length ≤ 128 →
    exec (.b2cUpdate msg) s = .next (answered
      (withB2b s
          { r with
            phase := .updating
            h := chainAfter paramsB r.t.toNat r.h (r.buf ++ msg) (interiorBlocks 64 (r.buf ++ msg).length)
            t := r.t + BitVec.ofNat 128 (128 * interiorBlocks 64 (r.buf ++ msg).length)
            buf := (r.buf ++ msg).drop (128 * interiorBlocks 64 (r.buf ++ msg).length) }) .ok [])) ∧
  (∀ (msg : List Byte) (s : State) (r : B2Regs 32), s.b2 = .blake2s r → r.phase ≠ .finalized →
    r.buf.length ≤ 64 →
    exec (.b2cUpdate msg) s = .next (answered
      (withB2s s
          { r with
            phase := .updating
            h := chainAfter paramsS r.t.toNat r.h (r.buf ++ msg) (interiorBlocks 32 (r.buf ++ msg).length)
            t := r.t + BitVec.ofNat 64 (64 * interiorBlocks 32 (r.buf ++ msg).length)
            buf := (r.buf ++ msg).drop (64 * interiorBlocks 32 (r.buf ++ msg).length) }) .ok []))

/-- Streaming equivalence of the controller: the pieces of a message in order leave the same controller as one
`B2C.UPDATE` of the whole (43_blake2_streaming.md R232 (a), 20_memory.md R68). -/
def Obligations.B2cUpdateStreams : Prop :=
  ∀ (pieces : List (List Byte)) (s : State), pieces ≠ [] → s.b2.phaseCode = 1 ∨ s.b2.phaseCode = 2 →
    ∃ t t' : State, execAll (pieces.map .b2cUpdate) s = .next t ∧ exec (.b2cUpdate pieces.flatten) s = .next t' ∧
      t.b2 = t'.b2 ∧ t.responses = s.responses ++ List.replicate pieces.length ⟨.ok, []⟩

/-- `B2C.FINAL` completes in `INITIALIZED` and `UPDATING`: one compression of the zero-padded buffer with `last` set,
the counter advanced by the buffer's length only, the phase `FINALIZED`, and the first `B2_DLEN` bytes of the chain
value as output; the buffer and the parameters stay (43_blake2_streaming.md R229, R230, 20_memory.md R66). -/
def Obligations.B2cFinalResult : Prop :=
  (∀ (s : State) (r : B2Regs 64), s.b2 = .blake2b r → r.phase ≠ .finalized →
    ∃ h', h' = compressF paramsB r.h (wordsOfBytes 64 16 (r.buf ++ List.replicate (128 - r.buf.length) 0))
        (countLow 64 ((r.t.toNat + r.buf.length) % 2 ^ 128)) (countHigh 64 ((r.t.toNat + r.buf.length) % 2 ^ 128))
        true ∧
      exec .b2cFinal s = .next (answered
        (withB2b s
          { r with
              phase := .finalized, h := h', t := BitVec.ofNat 128 (r.t.toNat + r.buf.length) })
        .ok ((bytesOfWords h').take r.dlen.toNat))) ∧
  (∀ (s : State) (r : B2Regs 32), s.b2 = .blake2s r → r.phase ≠ .finalized →
    ∃ h', h' = compressF paramsS r.h (wordsOfBytes 32 16 (r.buf ++ List.replicate (64 - r.buf.length) 0))
        (countLow 32 ((r.t.toNat + r.buf.length) % 2 ^ 64)) (countHigh 32 ((r.t.toNat + r.buf.length) % 2 ^ 64))
        true ∧
      exec .b2cFinal s = .next (answered
        (withB2s s
          { r with
              phase := .finalized, h := h', t := BitVec.ofNat 64 (r.t.toNat + r.buf.length) })
        .ok ((bytesOfWords h').take r.dlen.toNat)))

/-- From any state `B2B.INIT` with valid parameters, the message in any pieces, `B2C.FINAL`: the digest is BLAKE2b of
the key block and the whole message (43_blake2_streaming.md R232 (a), (b)). -/
def Obligations.Blake2bIsTheHashFunction : Prop :=
  ∀ (dlen : BitVec 7) (key salt pers : List Byte) (pieces : List (List Byte)) (s : State),
    legalConstruction 64 64 16 dlen key salt pers →
    ∃ t : State, execAll (.b2bInit dlen key salt pers :: pieces.map .b2cUpdate ++ [.b2cFinal]) s = .next t ∧
      t.responses = s.responses ++ List.replicate (pieces.length + 1) ⟨.ok, []⟩ ++
        [⟨.ok, b2Digest paramsB dlen key salt pers pieces.flatten⟩]

/-- From any state `B2S.INIT` with valid parameters, the message in any pieces, `B2C.FINAL`: the digest is BLAKE2s of
the key block and the whole message (43_blake2_streaming.md R232 (a), (b)). -/
def Obligations.Blake2sIsTheHashFunction : Prop :=
  ∀ (dlen : BitVec 7) (key salt pers : List Byte) (pieces : List (List Byte)) (s : State),
    legalConstruction 32 32 8 dlen key salt pers →
    ∃ t : State, execAll (.b2sInit dlen key salt pers :: pieces.map .b2cUpdate ++ [.b2cFinal]) s = .next t ∧
      t.responses = s.responses ++ List.replicate (pieces.length + 1) ⟨.ok, []⟩ ++
        [⟨.ok, b2Digest paramsS dlen key salt pers pieces.flatten⟩]

/-! ## RDREG -/

/-- `RDREG` completes in every state with the 4 bytes, least significant first, of the value the table of 10_state.md
R38 gives the register, 0 in every field while the block is `UNCONFIGURED`; nothing is written (44_system.md R262,
R261). -/
def Obligations.RdregResult : Prop :=
  ∀ (reg : RdReg) (s : State), ∃ v : Nat,
    exec (.rdreg reg) s = .next (answered s .ok
      [BitVec.ofNat 8 v, BitVec.ofNat 8 (v / 2 ^ 8), BitVec.ofNat 8 (v / 2 ^ 16), BitVec.ofNat 8 (v / 2 ^ 24)]) ∧
    v = match reg with
      | .id => 0x4B454343
      | .spStatus =>
        match s.sp with
        | .unconfigured => 0
        | .configured r => s.sp.phaseCode.toNat + 2 ^ 4 * r.var.id.toNat + 2 ^ 8 * (isShake s.sp).toNat
      | .spRate =>
        match s.sp with
        | .unconfigured => 0
        | .configured r => r.var.rate
      | .spDlen =>
        match s.sp with
        | .unconfigured => 0
        | .configured r => r.var.dlen.getD 0
      | .b2Status => s.b2.phaseCode.toNat + 2 ^ 4 * s.b2.varCode.toNat
      | .b2Dlen =>
        match s.b2 with
        | .unconfigured => 0
        | .blake2b r => r.dlen.toNat
        | .blake2s r => r.dlen.toNat
      | .b2Klen =>
        match s.b2 with
        | .unconfigured => 0
        | .blake2b r => r.klen.toNat
        | .blake2s r => r.klen.toNat
end

