-- ==== Sys2Proof/Laws/Bytes.lean ====
section
/-! SUPPORT. Byte order: lengths, and that packing and unpacking are inverse (00_scope.md R10). -/

namespace Sys2Proof.Machine

@[simp] theorem zeros_length (n : Nat) : (zeros n).length = n := by simp [zeros]

@[simp] theorem natBytes_length (n v : Nat) : (natBytes n v).length = n := by
  induction n generalizing v with
  | zero => rfl
  | succ n ih => simp [natBytes, ih]

@[simp] theorem wordBytes_length {w : Nat} (v : BitVec w) : (wordBytes v).length = w / 8 := by simp [wordBytes]

@[simp] theorem slice_length (s : List Byte) (off n : Nat) : (slice s off n).length = min n (s.length - off) := by
  simp [slice]

@[simp] theorem bytesOfWords_length {w n : Nat} (ws : Vector (BitVec w) n) :
    (bytesOfWords ws).length = n * (w / 8) := by
  simp [bytesOfWords, List.length_flatMap]

/-- A number of n bytes is below 2^(8n). -/
theorem leNat_lt (s : List Byte) : leNat s < 256 ^ s.length := by
  induction s with
  | nil => simp [leNat]
  | cons b s ih =>
    have hb : b.toNat < 256 := b.isLt
    simp only [leNat, List.length_cons, Nat.pow_succ]
    omega

/-- Reading back the bytes of a number gives it modulo 2^(8n). -/
theorem leNat_natBytes (n v : Nat) : leNat (natBytes n v) = v % 256 ^ n := by
  induction n generalizing v with
  | zero => simp [natBytes, leNat, Nat.mod_one]
  | succ n ih =>
    have h : v % 256 ^ (n + 1) = v % 256 + 256 * (v / 256 % 256 ^ n) := by
      rw [Nat.pow_succ, Nat.mul_comm, Nat.mod_mul]
    rw [h, natBytes, leNat, ih, BitVec.toNat_ofNat]

/-- Writing out the number of a byte sequence gives the sequence. -/
theorem natBytes_leNat (s : List Byte) : natBytes s.length (leNat s) = s := by
  induction s with
  | nil => rfl
  | cons b s ih =>
    have hb : b.toNat < 256 := b.isLt
    have h1 : (b.toNat + 256 * leNat s) / 256 = leNat s := by omega
    have h2 : BitVec.ofNat 8 (b.toNat + 256 * leNat s) = b := by
      apply BitVec.eq_of_toNat_eq
      simp only [BitVec.toNat_ofNat]
      omega
    simp [leNat, natBytes, h1, h2, ih]

/-- A word survives being written out and read back, for widths of whole bytes. -/
theorem leWord_wordBytes {w : Nat} (hw : 8 * (w / 8) = w) (v : BitVec w) : leWord w (wordBytes v) = v := by
  apply BitVec.eq_of_toNat_eq
  have hp : 256 ^ (w / 8) = 2 ^ w := by
    rw [show (256 : Nat) = 2 ^ 8 from rfl, ← Nat.pow_mul, hw]
  simp [leWord, wordBytes, leNat_natBytes, hp]

/-- w/8 bytes survive being read as a word and written out. -/
theorem wordBytes_leWord {w : Nat} (hw : 8 * (w / 8) = w) (s : List Byte) (hs : s.length = w / 8) :
    wordBytes (leWord w s) = s := by
  have hp : 256 ^ (w / 8) = 2 ^ w := by
    rw [show (256 : Nat) = 2 ^ 8 from rfl, ← Nat.pow_mul, hw]
  have hlt : leNat s < 2 ^ w := by rw [← hp, ← hs]; exact leNat_lt s
  simp only [wordBytes, leWord, BitVec.toNat_ofNat, Nat.mod_eq_of_lt hlt, ← hs]
  exact natBytes_leNat s

/-- The i-th group of the words written out is the i-th word written out. -/
theorem slice_flatMap_wordBytes {w : Nat} (l : List (BitVec w)) (i : Nat) (hi : i < l.length) :
    slice (l.flatMap wordBytes) (w / 8 * i) (w / 8) = wordBytes l[i] := by
  induction l generalizing i with
  | nil => simp at hi
  | cons a l ih =>
    cases i with
    | zero =>
      simp only [slice, Nat.mul_zero, List.drop_zero, List.flatMap_cons, List.getElem_cons_zero]
      rw [List.take_append_of_le_length (by simp), List.take_of_length_le (by simp)]
    | succ i =>
      have h : w / 8 * (i + 1) = (wordBytes a).length + w / 8 * i := by simp [Nat.mul_succ, Nat.add_comm]
      simp only [slice, List.flatMap_cons, List.getElem_cons_succ]
      rw [h, ← List.drop_drop, List.drop_left]
      exact ih i (by simpa using hi)

/-- Words survive being written out and read back. -/
theorem wordsOfBytes_bytesOfWords {w n : Nat} (hw : 8 * (w / 8) = w) (ws : Vector (BitVec w) n) :
    wordsOfBytes w n (bytesOfWords ws) = ws := by
  apply Vector.ext
  intro i hi
  have h := slice_flatMap_wordBytes ws.toList i (by simpa using hi)
  simp only [wordsOfBytes, Vector.getElem_ofFn, bytesOfWords]
  rw [h, leWord_wordBytes hw]
  simp

/-- n words' bytes survive being read as words and written out. -/
theorem bytesOfWords_wordsOfBytes {w n : Nat} (hw : 8 * (w / 8) = w) (s : List Byte) (hs : s.length = n * (w / 8)) :
    bytesOfWords (wordsOfBytes w n s) = s := by
  have key : ∀ (k : Nat) (s : List Byte), s.length = k * (w / 8) →
      ((List.range k).map fun i => leWord w (slice s (w / 8 * i) (w / 8))).flatMap wordBytes = s := by
    intro k
    induction k with
    | zero => intro s hs; simp at hs; simp [hs]
    | succ k ih =>
      intro s hs
      have hk : k * (w / 8) + w / 8 = s.length := by rw [hs, Nat.succ_mul]
      rw [List.range_succ, List.map_append, List.flatMap_append]
      have h1 := ih (s.take (k * (w / 8))) (by simp; omega)
      have h2 : ((List.range k).map fun i => leWord w (slice s (w / 8 * i) (w / 8))) =
          (List.range k).map fun i => leWord w (slice (s.take (k * (w / 8))) (w / 8 * i) (w / 8)) := by
        apply List.map_congr_left
        intro i hi
        have hik : i + 1 ≤ k := by simpa using hi
        have hm : (i + 1) * (w / 8) ≤ k * (w / 8) := Nat.mul_le_mul_right _ hik
        rw [Nat.succ_mul, Nat.mul_comm i] at hm
        simp only [slice, List.drop_take, List.take_take]
        congr 2
        omega
      rw [h2, h1]
      simp only [List.map_cons, List.map_nil, List.flatMap_cons, List.flatMap_nil, List.append_nil]
      rw [wordBytes_leWord hw _ (by simp [Nat.mul_comm (w / 8) k]; omega), Nat.mul_comm (w / 8) k]
      simp only [slice]
      rw [List.take_of_length_le (l := s.drop _) (by simp; omega), List.take_append_drop]
  have h := key n s hs
  rw [bytesOfWords]
  convert h using 2
  apply List.ext_getElem
  · simp
  · intro i h1 h2
    simp [wordsOfBytes]

end Sys2Proof.Machine
end

