-- ==== Sys2Proof/Laws/Decode.lean ====
section
/-! SUPPORT. The fields of the words the formats build, and the inverse tables of opcodes, variants and registers. -/

namespace Sys2Proof

@[simp] theorem ofByte?_code (op : Opcode) : Opcode.ofByte? op.code = some op := by cases op <;> rfl

/-- A row is selected by its own opcode byte only (30_encoding.md R98). -/
theorem code_of_ofByte? (b : Byte) (op : Opcode) (h : Opcode.ofByte? b = some op) : op.code = b := by
  revert b op; decide +kernel

@[simp] theorem ofId?_id (v : SpVar) : SpVar.ofId? v.id = some v := by cases v <;> rfl

/-- A variant is selected by its own id only (30_encoding.md R94). -/
theorem id_of_ofId? (n : BitVec 4) (v : SpVar) (h : SpVar.ofId? n = some v) : v.id = n := by
  revert n v; decide +kernel

@[simp] theorem ofNumber?_number (r : RdReg) : RdReg.ofNumber? r.number = some r := by cases r <;> rfl

/-- A register is selected by its own number only (10_state.md R38). -/
theorem number_of_ofNumber? (n : Byte) (r : RdReg) (h : RdReg.ofNumber? n = some r) : r.number = n := by
  revert n r; decide +kernel

@[simp] theorem fieldOp_formatN (op : Opcode) : fieldOp (formatN op) = op.code := by cases op <;> rfl


/-- Format N holds the opcode and zeros (30_encoding.md R92). -/
@[simp] theorem formatN_zero (op : Opcode) : (formatN op).extractLsb' 8 24 = 0 := by cases op <;> rfl

/-- Format L holds the opcode and `LEN` (30_encoding.md R93). -/
@[simp] theorem formatL_fields (op : Opcode) (len : BitVec 24) :
    fieldOp (formatL op len) = op.code ∧ fieldLen (formatL op len) = len := by
  refine ⟨?_, ?_⟩ <;> ext i hi <;> simp [fieldOp, fieldLen, formatL] <;> grind

/-- Format V holds the opcode, `VAR` and zeros (30_encoding.md R94). -/
@[simp] theorem formatV_fields (op : Opcode) (v : BitVec 4) :
    fieldOp (formatV op v) = op.code ∧ fieldVar (formatV op v) = v ∧ (formatV op v).extractLsb' 12 20 = 0 := by
  refine ⟨?_, ?_, ?_⟩ <;> ext i hi <;> simp [fieldOp, fieldVar, formatV] <;> grind

/-- Format C holds the opcode, `LAST` and zeros (30_encoding.md R95). -/
@[simp] theorem formatC_fields (op : Opcode) (last : Bool) :
    fieldOp (formatC op last) = op.code ∧ fieldLast (formatC op last) = last ∧
      (formatC op last).extractLsb' 9 23 = 0 := by
  cases op <;> cases last <;> decide

/-- Format B holds the opcode and the four lengths (30_encoding.md R96). -/
@[simp] theorem formatB_fields (op : Opcode) (dlen klen : BitVec 7) (slen plen : BitVec 5) :
    fieldOp (formatB op dlen klen slen plen) = op.code ∧ fieldDlen (formatB op dlen klen slen plen) = dlen ∧
      fieldKlen (formatB op dlen klen slen plen) = klen ∧ fieldSlen (formatB op dlen klen slen plen) = slen ∧
      fieldPlen (formatB op dlen klen slen plen) = plen := by
  refine ⟨?_, ?_, ?_, ?_, ?_⟩ <;> ext i hi <;>
    simp [fieldOp, fieldDlen, fieldKlen, fieldSlen, fieldPlen, formatB] <;> grind

/-- Format R holds the opcode, `REG` and zeros (30_encoding.md R97). -/
@[simp] theorem formatR_fields (op : Opcode) (reg : Byte) :
    fieldOp (formatR op reg) = op.code ∧ fieldReg (formatR op reg) = reg ∧
      (formatR op reg).extractLsb' 16 16 = 0 := by
  refine ⟨?_, ?_, ?_⟩ <;> ext i hi <;> simp [fieldOp, fieldReg, formatR] <;> grind

/-! A word is its fields: what a format takes apart it puts together again. -/

/-- A word is its opcode byte and the 24 bits above it. -/
theorem word_ext (w w' : Word) (h1 : fieldOp w = fieldOp w') (h2 : fieldLen w = fieldLen w') : w = w' := by
  ext i hi
  by_cases h : i < 8
  · simpa [fieldOp, h, hi] using congrArg (fun v => v.getLsbD i) h1
  · have h3 : i - 8 < 24 := by omega
    have h4 := congrArg (fun v => v.getLsbD (i - 8)) h2
    simp only [fieldLen, BitVec.getLsbD_extractLsb', show 8 + (i - 8) = i from by omega] at h4
    simpa [hi, h3] using h4

theorem formatN_of_fields (op : Opcode) (w : Word) (h : fieldOp w = op.code) (hz : w.extractLsb' 8 24 = 0) :
    formatN op = w :=
  word_ext _ _ (by simp [h]) (by simp [fieldLen, hz])

theorem formatL_of_fields (op : Opcode) (w : Word) (h : fieldOp w = op.code) : formatL op (fieldLen w) = w :=
  word_ext _ _ (by simp [h]) (by simp)

theorem formatV_of_fields (op : Opcode) (w : Word) (h : fieldOp w = op.code) (hz : w.extractLsb' 12 20 = 0) :
    formatV op (fieldVar w) = w := by
  refine word_ext _ _ (by simp [h]) ?_
  ext i hi
  by_cases h4 : i < 4
  · simp [fieldLen, formatV, fieldVar, h4]
    grind
  · have h1 := congrArg (fun v => v.getLsbD (i - 4)) hz
    simp [show 12 + (i - 4) = 8 + i from by omega] at h1
    simp [fieldLen, formatV, fieldVar, h4, h1 (by omega)]

theorem formatC_of_fields (op : Opcode) (w : Word) (h : fieldOp w = op.code) (hz : w.extractLsb' 9 23 = 0) :
    formatC op (fieldLast w) = w := by
  refine word_ext _ _ (by simp [h]) ?_
  ext i hi
  by_cases h4 : i < 1
  · simp [fieldLen, formatC, fieldLast, show i = 0 from by omega]
  · have h1 := congrArg (fun v => v.getLsbD (i - 1)) hz
    simp [show 9 + (i - 1) = 8 + i from by omega] at h1
    simp [fieldLen, formatC, fieldLast, h1 (by omega)]
    omega

theorem formatB_of_fields (op : Opcode) (w : Word) (h : fieldOp w = op.code) :
    formatB op (fieldDlen w) (fieldKlen w) (fieldSlen w) (fieldPlen w) = w := by
  refine word_ext _ _ (by simp [h]) ?_
  ext i hi
  simp [fieldLen, formatB, fieldDlen, fieldKlen, fieldSlen, fieldPlen]
  grind

theorem formatR_of_fields (op : Opcode) (w : Word) (h : fieldOp w = op.code) (hz : w.extractLsb' 16 16 = 0) :
    formatR op (fieldReg w) = w := by
  refine word_ext _ _ (by simp [h]) ?_
  ext i hi
  by_cases h4 : i < 8
  · simp [fieldLen, formatR, fieldReg, h4]
    grind
  · have h1 := congrArg (fun v => v.getLsbD (i - 8)) hz
    simp [show 16 + (i - 8) = 8 + i from by omega] at h1
    simp [fieldLen, formatR, fieldReg, h4, h1 (by omega)]

end Sys2Proof
end

