-- ==== Sys2Proof/Laws/State.lean ====
section
/-! SUPPORT. One lemma per field of each update of the state, so that no proof unfolds a record update. -/

namespace Sys2Proof.Machine

@[simp] theorem respond_commands (s : State) (st : Status) (out : List Byte) :
    (s.respond st out).commands = s.commands := rfl
@[simp] theorem respond_sp (s : State) (st : Status) (out : List Byte) : (s.respond st out).sp = s.sp := rfl
@[simp] theorem respond_b2 (s : State) (st : Status) (out : List Byte) : (s.respond st out).b2 = s.b2 := rfl
@[simp] theorem respond_responses (s : State) (st : Status) (out : List Byte) :
    (s.respond st out).responses = s.responses ++ [⟨st, out⟩] := rfl

@[simp] theorem setSp_commands (s : State) (r : SpRegs) : (s.setSp r).commands = s.commands := rfl
@[simp] theorem setSp_sp (s : State) (r : SpRegs) : (s.setSp r).sp = .configured r := rfl
@[simp] theorem setSp_b2 (s : State) (r : SpRegs) : (s.setSp r).b2 = s.b2 := rfl
@[simp] theorem setSp_responses (s : State) (r : SpRegs) : (s.setSp r).responses = s.responses := rfl

@[simp] theorem setB2_commands (s : State) (b : B2Block) : (s.setB2 b).commands = s.commands := rfl
@[simp] theorem setB2_sp (s : State) (b : B2Block) : (s.setB2 b).sp = s.sp := rfl
@[simp] theorem setB2_b2 (s : State) (b : B2Block) : (s.setB2 b).b2 = b := rfl
@[simp] theorem setB2_responses (s : State) (b : B2Block) : (s.setB2 b).responses = s.responses := rfl

@[simp] theorem deliver_commands (s : State) (c : Command) : (s.deliver c).commands = c :: s.commands := rfl
@[simp] theorem deliver_sp (s : State) (c : Command) : (s.deliver c).sp = s.sp := rfl
@[simp] theorem deliver_b2 (s : State) (c : Command) : (s.deliver c).b2 = s.b2 := rfl
@[simp] theorem deliver_responses (s : State) (c : Command) : (s.deliver c).responses = s.responses := rfl

@[simp] theorem taking_commands (s : State) (rest : List Command) : (s.taking rest).commands = rest := rfl
@[simp] theorem taking_sp (s : State) (rest : List Command) : (s.taking rest).sp = s.sp := rfl
@[simp] theorem taking_b2 (s : State) (rest : List Command) : (s.taking rest).b2 = s.b2 := rfl
@[simp] theorem taking_responses (s : State) (rest : List Command) : (s.taking rest).responses = s.responses := rfl

/-- An answer is a next state with one response more. -/
theorem answer_eq (s : State) (out : List Byte) : answer s out = .next (s.respond .ok out) := rfl

/-- An error is a next state in which nothing but the responses has changed (60_exceptions.md R273). -/
theorem raise_eq (e : Status) (s : State) : raise e s = .next (s.respond e []) := rfl

/-- Answering determines the next state. -/
@[simp] theorem answer_next (s t : State) (out : List Byte) : answer s out = .next t ↔ t = s.respond .ok out := by
  simp [answer, eq_comm]

/-- Raising determines the next state. -/
@[simp] theorem raise_next (e : Status) (s t : State) : raise e s = .next t ↔ t = s.respond e [] := by
  simp [raise, eq_comm]

end Sys2Proof.Machine
end

