-- ==== Sys2Proof/Laws/Exec.lean ====
section
/-! SUPPORT. What executing a command can do, said once: it gives a next state with one response more. -/

namespace Sys2Proof.Machine

/-- Executing any command gives a next state: the host's stream is untouched and one response is appended, which has
output only with `OK` (30_encoding.md R90, 60_exceptions.md R273). -/
theorem exec_cases (i : Instr) (s : State) :
    ∃ (t : State) (st : Status) (out : List Byte), exec i s = .next t ∧ t.commands = s.commands ∧
      t.responses = s.responses ++ [⟨st, out⟩] ∧
      (st = .ok ∨ (st = .configurationError ∨ st = .sequencingError) ∧ t = s.respond st []) := by
  have ok : ∀ (u : State) (out : List Byte), u.commands = s.commands → u.responses = s.responses →
      ∃ (t : State) (st : Status) (o : List Byte), answer u out = .next t ∧ t.commands = s.commands ∧
        t.responses = s.responses ++ [⟨st, o⟩] ∧
        (st = .ok ∨ (st = .configurationError ∨ st = .sequencingError) ∧ t = s.respond st []) :=
    fun u out hc hr => ⟨u.respond .ok out, .ok, out, rfl, hc, by simp [hr], .inl rfl⟩
  have err : ∀ e : Status, e = .configurationError ∨ e = .sequencingError →
      ∃ (t : State) (st : Status) (o : List Byte), raise e s = .next t ∧ t.commands = s.commands ∧
        t.responses = s.responses ++ [⟨st, o⟩] ∧
        (st = .ok ∨ (st = .configurationError ∨ st = .sequencingError) ∧ t = s.respond st []) :=
    fun e he => ⟨_, _, _, rfl, rfl, rfl, .inr ⟨he, rfl⟩⟩
  cases i <;>
    simp only [exec, execKfPermute, execSpInit, execSpReset, execSpAbsorb, execSpFinalize, execSpSqueeze, execSpDigest,
      execB2bCompress, execB2sCompress, execB2bInit, execB2sInit, execB2cReset, execB2cUpdate, execB2cFinal,
      execRdreg] <;>
    (repeat' split) <;>
    first
      | exact ok _ _ rfl rfl
      | exact err _ (.inl rfl)
      | exact err _ (.inr rfl)

/-- The host's stream is no operand: executing a command with another stream gives the same with that stream
(20_memory.md R75). -/
theorem exec_taking (i : Instr) (s : State) (cs : List Command) :
    ∃ t, exec i s = .next t ∧ exec i (s.taking cs) = .next (t.taking cs) := by
  rcases s with ⟨c0, sp, b2, rs⟩
  cases i <;>
    simp only [exec, execKfPermute, execSpInit, execSpReset, execSpAbsorb, execSpFinalize, execSpSqueeze, execSpDigest,
      execB2bCompress, execB2sCompress, execB2bInit, execB2sInit, execB2cReset, execB2cUpdate, execB2cFinal, execRdreg,
      State.taking] <;>
    (repeat' split) <;>
    exact ⟨_, rfl, rfl⟩

end Sys2Proof.Machine
end

