-- ==== Sys2Proof/Laws/Flags.lean ====
section
/-! SUPPORT. The phase numbers read back as phases, and the validation of construction parameters as a proposition. -/

namespace Sys2Proof.Machine

@[simp] theorem sp_phaseCode_unconfigured : SpBlock.unconfigured.phaseCode = 0#2 := rfl
@[simp] theorem sp_phaseCode_ne_zero (r : SpRegs) : (SpBlock.configured r).phaseCode ≠ 0#2 := by
  rcases r with ⟨_ | _, _⟩ <;> simp [SpBlock.phaseCode]
@[simp] theorem sp_phaseCode_one (r : SpRegs) : (SpBlock.configured r).phaseCode = 1#2 ↔ r.phase = .absorbing := by
  rcases r with ⟨_ | _, _⟩ <;> simp [SpBlock.phaseCode]
@[simp] theorem sp_phaseCode_two (r : SpRegs) : (SpBlock.configured r).phaseCode = 2#2 ↔ r.phase = .squeezing := by
  rcases r with ⟨_ | _, _⟩ <;> simp [SpBlock.phaseCode]

@[simp] theorem b2_phaseCode_unconfigured : B2Block.unconfigured.phaseCode = 0#2 := rfl
@[simp] theorem b2_phaseCode_blake2b (r : B2Regs 64) : (B2Block.blake2b r).phaseCode = r.phase.code := rfl
@[simp] theorem b2_phaseCode_blake2s (r : B2Regs 32) : (B2Block.blake2s r).phaseCode = r.phase.code := rfl
@[simp] theorem code_ne_zero (p : B2Phase) : p.code ≠ 0#2 := by cases p <;> simp [B2Phase.code]
@[simp] theorem code_one (p : B2Phase) : p.code = 1#2 ↔ p = .initialized := by cases p <;> simp [B2Phase.code]
@[simp] theorem code_two (p : B2Phase) : p.code = 2#2 ↔ p = .updating := by cases p <;> simp [B2Phase.code]
@[simp] theorem code_three (p : B2Phase) : p.code = 3#2 ↔ p = .finalized := by cases p <;> simp [B2Phase.code]

/-- The open phases are the configured ones before finalization (10_state.md R34). -/
theorem open_iff (p : B2Phase) : p.open = true ↔ p ≠ .finalized := by cases p <;> simp [B2Phase.open]

/-- Validation as a proposition (43_blake2_streaming.md R224). -/
theorem validParams_iff {w : Nat} (p : B2Params w) (dlen klen slen plen : Nat) :
    validParams p dlen klen slen plen = true ↔
      1 ≤ dlen ∧ dlen ≤ p.maxDlen ∧ klen ≤ p.maxKlen ∧ (slen = 0 ∨ slen = p.saltLen) ∧
        (plen = 0 ∨ plen = p.saltLen) := by
  simp [validParams]

end Sys2Proof.Machine
end

