-- ==== Sys2Proof/Laws/Keccak.lean ====
section
/-! SUPPORT. The step mappings lane by lane (40_keccak_f1600.md R122 to R126). -/

namespace Sys2Proof.Machine

theorem thetaC_getElem (a : Lanes) (x : Nat) (h : x < 5) :
    (thetaC a)[x] = a[x] ^^^ a[x + 5] ^^^ a[x + 10] ^^^ a[x + 15] ^^^ a[x + 20] := by
  simp [thetaC]

theorem thetaD_getElem (col : Vector Lane 5) (x : Nat) (h : x < 5) :
    (thetaD col)[x] = col[(x + 4) % 5] ^^^ (col[(x + 1) % 5]).rotateLeft 1 := by
  simp [thetaD]

theorem theta_getElem (a : Lanes) (i : Nat) (h : i < 25) : (theta a)[i] = a[i] ^^^ (thetaD (thetaC a))[i % 5] := by
  simp [theta]

theorem rho_getElem (a : Lanes) (i : Nat) (h : i < 25) : (rho a)[i] = a[i].rotateLeft rhoOffsets[i] := by
  simp [rho]

theorem pi_getElem (a : Lanes) (i : Nat) (h : i < 25) : (pi a)[i] = a[(piSource[i]).val] := by
  rw [pi, Vector.getElem_ofFn]
  rfl

theorem roundConstants_left (r : Nat) (h : r < 12) : roundConstants[r] = roundConstantRows[r].1 :=
  (Vector.getElem_append_left h).trans (Vector.getElem_map _ h)

theorem roundConstants_right (r : Nat) (h : r < 12) : roundConstants[r + 12] = roundConstantRows[r].2 :=
  (Vector.getElem_append_right (Nat.add_lt_add_right h 12) (Nat.le_add_left 12 r)).trans (Vector.getElem_map _ h)

theorem iota_getElem (k : Lane) (a : Lanes) (i : Nat) (h : i < 25) :
    (iota k a)[i] = if 0 = i then a[0] ^^^ k else a[i] := by
  simp only [iota, Vector.getElem_set]

end Sys2Proof.Machine
end

