-- ==== Sys2Proof/Laws/Operands.lean ====
section
/-! SUPPORT. The payload layouts: the parts of a payload are what was put together, and put together they are the
payload (30_encoding.md R99; 42_blake2_compression.md R198, R199). -/

namespace Sys2Proof.Machine

/-- Three consecutive slices of a sequence are the sequence. -/
theorem slice_append_slice (s : List Byte) (a b n : Nat) (h : s.length = a + b + n) :
    slice s 0 a ++ slice s a b ++ slice s (a + b) n = s := by
  simp only [slice, List.drop_zero]
  rw [← List.take_add, List.take_of_length_le (l := s.drop _) (by simp; omega), List.take_append_drop]

/-- A slice that ends before the second part of a concatenation is a slice of the first. -/
theorem slice_append_left (a b : List Byte) (o n : Nat) (h : o + n ≤ a.length) : slice (a ++ b) o n = slice a o n := by
  simp only [slice]
  rw [List.drop_append_of_le_length (by omega), List.take_append_of_le_length (by simp; omega)]

/-- A slice that starts in the second part of a concatenation is a slice of it. -/
theorem slice_append_right (a b : List Byte) (o n : Nat) (h : a.length ≤ o) :
    slice (a ++ b) o n = slice b (o - a.length) n := by
  simp [slice, List.drop_append, List.drop_eq_nil_of_le h]

@[simp] theorem initKey_append (k s p : List Byte) : initKey (k ++ s ++ p) k.length = k := by simp [initKey, slice]

@[simp] theorem initSalt_append (k s p : List Byte) : initSalt (k ++ s ++ p) k.length s.length = s := by
  simp [initSalt, slice]

@[simp] theorem initPers_append (k s p : List Byte) : initPers (k ++ s ++ p) k.length s.length p.length = p := by
  simp only [initPers, slice, ← List.length_append, List.drop_left, List.take_length]

variable {w : Nat} (h : Vector (BitVec w) 8) (m : Vector (BitVec w) 16) (t0 t1 : BitVec w)

/-- The groups of n words lie within n words' bytes. -/
theorem group_le {i n : Nat} (hi : i < n) : w / 8 * i + w / 8 ≤ n * (w / 8) := by
  have h1 : (i + 1) * (w / 8) ≤ n * (w / 8) := Nat.mul_le_mul_right _ hi
  rw [Nat.succ_mul, Nat.mul_comm] at h1
  exact h1

/-- Reading n words needs the first n words' bytes only. -/
theorem wordsOfBytes_append (n : Nat) (a b : List Byte) (ha : a.length = n * (w / 8)) :
    wordsOfBytes w n (a ++ b) = wordsOfBytes w n a := by
  apply Vector.ext
  intro i hi
  simp only [wordsOfBytes, Vector.getElem_ofFn]
  rw [slice_append_left _ _ _ _ (by rw [ha]; exact group_le hi)]

theorem compressH_payload (hw : 8 * (w / 8) = w) : compressH w (compressPayload h m t0 t1) = h := by
  rw [compressH, compressPayload, List.append_assoc, List.append_assoc, wordsOfBytes_append _ _ _ (by simp),
    wordsOfBytes_bytesOfWords hw]

theorem compressM_payload (hw : 8 * (w / 8) = w) : compressM w (compressPayload h m t0 t1) = m := by
  have hl : 8 * (w / 8) = (bytesOfWords h).length := by simp
  rw [compressM, compressPayload, List.append_assoc, List.append_assoc, hl, List.drop_left,
    wordsOfBytes_append _ _ _ (by simp), wordsOfBytes_bytesOfWords hw]

theorem compressT0_payload (hw : 8 * (w / 8) = w) : compressT0 w (compressPayload h m t0 t1) = t0 := by
  have hl : 24 * (w / 8) = (bytesOfWords h ++ bytesOfWords m).length := by simp; omega
  rw [compressT0, compressPayload, List.append_assoc, hl, slice, List.drop_left,
    List.take_append_of_le_length (by simp), List.take_of_length_le (by simp), leWord_wordBytes hw]

theorem compressT1_payload (hw : 8 * (w / 8) = w) : compressT1 w (compressPayload h m t0 t1) = t1 := by
  have hl : 25 * (w / 8) = (bytesOfWords h ++ bytesOfWords m ++ wordBytes t0).length := by simp; omega
  rw [compressT1, compressPayload, hl, slice, List.drop_left, List.take_of_length_le (by simp), leWord_wordBytes hw]

/-- Reading n words out of a sequence and writing them back gives its first n words' bytes. -/
theorem bytesOfWords_take (hw : 8 * (w / 8) = w) (n : Nat) (s : List Byte) (hs : n * (w / 8) ≤ s.length) :
    bytesOfWords (wordsOfBytes w n s) = s.take (n * (w / 8)) := by
  have h1 := wordsOfBytes_append (w := w) n (s.take (n * (w / 8))) (s.drop (n * (w / 8))) (by simp [hs])
  rw [List.take_append_drop] at h1
  rw [h1, bytesOfWords_wordsOfBytes hw _ (by simp [hs])]

/-- A compression payload is its parts (42_blake2_compression.md R198, R199). -/
theorem compressPayload_parts (hw : 8 * (w / 8) = w) (s : List Byte) (hs : s.length = 26 * (w / 8)) :
    compressPayload (compressH w s) (compressM w s) (compressT0 w s) (compressT1 w s) = s := by
  rw [compressPayload, compressH, compressM, compressT0, compressT1, bytesOfWords_take hw _ _ (by omega),
    bytesOfWords_take hw _ _ (by simp; omega), wordBytes_leWord hw _ (by simp; omega),
    wordBytes_leWord hw _ (by simp; omega)]
  have h1 := slice_append_slice s (8 * (w / 8)) (16 * (w / 8)) (2 * (w / 8)) (by omega)
  have h2 : slice s (8 * (w / 8) + 16 * (w / 8)) (2 * (w / 8)) =
      slice s (24 * (w / 8)) (w / 8) ++ slice s (25 * (w / 8)) (w / 8) := by
    simp only [slice]
    rw [show 2 * (w / 8) = w / 8 + w / 8 from by omega, List.take_add (i := w / 8) (j := w / 8), List.drop_drop,
      show 8 * (w / 8) + 16 * (w / 8) = 24 * (w / 8) from by omega,
      show 24 * (w / 8) + w / 8 = 25 * (w / 8) from by omega]
  rw [h2] at h1
  simpa [slice, List.append_assoc] using h1

end Sys2Proof.Machine
end

