-- ==== Sys2Proof/Laws/PerInstr.lean ====
section
/-! SUPPORT. Two facts about every instruction as syntax: the word its encoding has selects its own row, and the payload
has the length that word asks for. -/

namespace Sys2Proof.Laws

open Sys2Proof

/-- The opcode byte of an instruction's word is its row's (30_encoding.md R91, R98). -/
def EncodedOpcode.Statement (i : Instr) : Prop := fieldOp (encode i).word = i.opcode.code

namespace EncodedOpcode

theorem kfPermute (a : Lanes) : Statement (.kfPermute a) := fieldOp_formatN _
theorem spInit (v : SpVar) : Statement (.spInit v) := (formatV_fields _ _).1
theorem spReset : Statement .spReset := fieldOp_formatN _
theorem spAbsorb (msg : List Byte) : Statement (.spAbsorb msg) := (formatL_fields _ _).1
theorem spFinalize : Statement .spFinalize := fieldOp_formatN _
theorem spSqueeze (n : BitVec 24) : Statement (.spSqueeze n) := (formatL_fields _ _).1
theorem spDigest : Statement .spDigest := fieldOp_formatN _
theorem b2bCompress (last : Bool) (h : Vector (BitVec 64) 8) (m : Vector (BitVec 64) 16) (t0 t1 : BitVec 64) :
    Statement (.b2bCompress last h m t0 t1) := (formatC_fields _ _).1
theorem b2sCompress (last : Bool) (h : Vector (BitVec 32) 8) (m : Vector (BitVec 32) 16) (t0 t1 : BitVec 32) :
    Statement (.b2sCompress last h m t0 t1) := (formatC_fields _ _).1
theorem b2bInit (dlen : BitVec 7) (key salt pers : List Byte) : Statement (.b2bInit dlen key salt pers) :=
  (formatB_fields _ _ _ _ _).1
theorem b2sInit (dlen : BitVec 7) (key salt pers : List Byte) : Statement (.b2sInit dlen key salt pers) :=
  (formatB_fields _ _ _ _ _).1
theorem b2cReset : Statement .b2cReset := fieldOp_formatN _
theorem b2cUpdate (msg : List Byte) : Statement (.b2cUpdate msg) := (formatL_fields _ _).1
theorem b2cFinal : Statement .b2cFinal := fieldOp_formatN _
theorem rdreg (r : RdReg) : Statement (.rdreg r) := (formatR_fields _ _).1

end EncodedOpcode

/-- The payload of a well-formed instruction has the length its word fixes (30_encoding.md R99). -/
def EncodedLength.Statement (i : Instr) : Prop :=
  i.wellFormed = true → (encode i).payload.length = payloadLength i.opcode (encode i).word

namespace EncodedLength

/-- A byte count the format L field can hold survives it (30_encoding.md R93). -/
theorem length_lenField {s : List Byte} (h : s.length ≤ Config.lenMax) :
    s.length = (BitVec.ofNat 24 s.length).toNat := by
  simp only [Config.lenMax] at h
  rw [BitVec.toNat_ofNat, Nat.mod_eq_of_lt (by omega)]

/-- The three lengths the format B fields can hold survive them (30_encoding.md R96). -/
theorem length_initFields {key salt pers : List Byte}
    (h : key.length < 2 ^ 7 ∧ salt.length < 2 ^ 5 ∧ pers.length < 2 ^ 5) :
    (key ++ salt ++ pers).length = (BitVec.ofNat 7 key.length).toNat + (BitVec.ofNat 5 salt.length).toNat +
      (BitVec.ofNat 5 pers.length).toNat := by
  simp only [List.length_append, BitVec.toNat_ofNat]
  rw [Nat.mod_eq_of_lt h.1, Nat.mod_eq_of_lt h.2.1, Nat.mod_eq_of_lt h.2.2]

theorem kfPermute (a : Lanes) : Statement (.kfPermute a) := fun _ => by
  simp [encode, Instr.opcode, payloadLength, Machine.bytesOfLanes]
theorem spInit (v : SpVar) : Statement (.spInit v) := fun _ => rfl
theorem spReset : Statement .spReset := fun _ => rfl
theorem spAbsorb (msg : List Byte) : Statement (.spAbsorb msg) := fun h => by
  simp only [Instr.wellFormed, decide_eq_true_eq] at h
  simpa [encode, Instr.opcode, payloadLength] using length_lenField h
theorem spFinalize : Statement .spFinalize := fun _ => rfl
theorem spSqueeze (n : BitVec 24) : Statement (.spSqueeze n) := fun _ => rfl
theorem spDigest : Statement .spDigest := fun _ => rfl
theorem b2bCompress (last : Bool) (h : Vector (BitVec 64) 8) (m : Vector (BitVec 64) 16) (t0 t1 : BitVec 64) :
    Statement (.b2bCompress last h m t0 t1) := fun _ => by
  simp [encode, Instr.opcode, payloadLength, Machine.compressPayload]
theorem b2sCompress (last : Bool) (h : Vector (BitVec 32) 8) (m : Vector (BitVec 32) 16) (t0 t1 : BitVec 32) :
    Statement (.b2sCompress last h m t0 t1) := fun _ => by
  simp [encode, Instr.opcode, payloadLength, Machine.compressPayload]
theorem b2bInit (dlen : BitVec 7) (key salt pers : List Byte) : Statement (.b2bInit dlen key salt pers) := fun h => by
  simp only [Instr.wellFormed, decide_eq_true_eq] at h
  simpa only [encode, Instr.opcode, payloadLength, formatB_fields] using length_initFields h
theorem b2sInit (dlen : BitVec 7) (key salt pers : List Byte) : Statement (.b2sInit dlen key salt pers) := fun h => by
  simp only [Instr.wellFormed, decide_eq_true_eq] at h
  simpa only [encode, Instr.opcode, payloadLength, formatB_fields] using length_initFields h
theorem b2cReset : Statement .b2cReset := fun _ => rfl
theorem b2cUpdate (msg : List Byte) : Statement (.b2cUpdate msg) := fun h => by
  simp only [Instr.wellFormed, decide_eq_true_eq] at h
  simpa [encode, Instr.opcode, payloadLength] using length_lenField h
theorem b2cFinal : Statement .b2cFinal := fun _ => rfl
theorem rdreg (r : RdReg) : Statement (.rdreg r) := fun _ => rfl

end EncodedLength

end Sys2Proof.Laws
end

