-- ==== Sys2Proof/Laws/Reference.lean ====
section
/-! SUPPORT. The words of the statements in the machine's own terms: the same updates, tables and limits. -/

namespace Sys2Proof.Reference

open Sys2Proof.Machine

theorem answer_setSp (s : State) (r : SpRegs) (out : List Byte) :
    answer (s.setSp r) out = .next (answered (withSp s r) .ok out) := rfl

theorem answer_setB2b (s : State) (r : B2Regs 64) (out : List Byte) :
    answer (s.setB2 (.blake2b r)) out = .next (answered (withB2b s r) .ok out) := rfl

theorem answer_setB2s (s : State) (r : B2Regs 32) (out : List Byte) :
    answer (s.setB2 (.blake2s r)) out = .next (answered (withB2s s r) .ok out) := rfl

theorem raise_answered (e : Status) (s : State) : raise e s = .next (answered s e []) := rfl

theorem isShake_configured (r : SpRegs) : isShake (.configured r) = r.var.xof := by
  rcases r with ⟨ph, v, a, b, o⟩
  cases v <;> rfl

theorem validParams_b (dlen : BitVec 7) (key salt pers : List Byte) :
    validParams paramsB dlen.toNat key.length salt.length pers.length = true ↔
      legalConstruction 64 64 16 dlen key salt pers :=
  validParams_iff ..

theorem validParams_s (dlen : BitVec 7) (key salt pers : List Byte) :
    validParams paramsS dlen.toNat key.length salt.length pers.length = true ↔
      legalConstruction 32 32 8 dlen key salt pers :=
  validParams_iff ..

/-- Executing a first list and then a second is executing the one after the other. -/
theorem execAll_append (is js : List Instr) (s t : State) (h : execAll is s = .next t) :
    execAll (is ++ js) s = execAll js t := by
  induction is generalizing s with
  | nil =>
    simp only [execAll, Host.Outcome.next.injEq] at h
    rw [← h, List.nil_append]
  | cons i is ih =>
    obtain ⟨t', _, _, h1, -⟩ := exec_cases i s
    simp only [execAll, List.cons_append, h1] at h ⊢
    exact ih t' h

end Sys2Proof.Reference
end

