-- ==== Sys2Proof/Laws/Sponge.lean ====
section
/-! SUPPORT. What each shared operation of the sponge can do (41_sponge.md R151 to R158). -/

namespace Sys2Proof.Machine

theorem rate_pos (v : SpVar) : 0 < v.rate := by cases v <;> decide

/-- A rate is a whole number of lanes, and a digest fits into one chunk (00_scope.md R8). -/
theorem rate_bounds (v : SpVar) : v.rate % 8 = 0 ∧ v.rate < 200 ∧ v.dlen.getD 0 < v.rate := by cases v <;> decide

/-- A variant has a fixed output length or is extendable, never both (00_scope.md R8). -/
theorem dlen_isSome (v : SpVar) : v.dlen.isSome = !v.xof := by cases v <;> rfl

@[simp] theorem padBlock_length (buf : List Byte) (suffix : Byte) (rate : Nat) (h : buf.length < rate) :
    (padBlock buf suffix rate).length = rate := by
  simp [padBlock]; omega

/-- Taking in a byte, case by case: it is appended, and a block that is full then is absorbed (41_sponge.md R157). -/
theorem absorbByte_cases (r : SpRegs) (b : Byte) :
    (r.buf.length + 1 ≠ r.var.rate ∧ r.absorbByte b = { r with buf := r.buf ++ [b] }) ∨
    (r.buf.length + 1 = r.var.rate ∧
      r.absorbByte b = { r with lanes := absorbBlock r.var.rate r.lanes (r.buf ++ [b]), buf := [] }) := by
  by_cases h : r.buf.length + 1 = r.var.rate <;> simp [SpRegs.absorbByte, SpRegs.blockFull, h]

theorem absorb_nil (r : SpRegs) : r.absorb [] = r := rfl

theorem absorb_cons (r : SpRegs) (b : Byte) (msg : List Byte) : r.absorb (b :: msg) = (r.absorbByte b).absorb msg := rfl

/-- Absorbing two pieces is absorbing their concatenation (41_sponge.md R162 (b)). -/
theorem absorb_append (r : SpRegs) (a b : List Byte) : r.absorb (a ++ b) = (r.absorb a).absorb b := by
  simp [SpRegs.absorb]

/-- Absorbing leaves variant, phase and offset (41_sponge.md R157). -/
theorem absorb_frame (r : SpRegs) (msg : List Byte) :
    (r.absorb msg).var = r.var ∧ (r.absorb msg).phase = r.phase ∧ (r.absorb msg).sqOff = r.sqOff := by
  induction msg generalizing r with
  | nil => simp [absorb_nil]
  | cons b msg ih =>
    obtain ⟨-, h⟩ | ⟨-, h⟩ := absorbByte_cases r b <;> simpa [absorb_cons, h] using ih (r.absorbByte b)

/-- Absorbing keeps the buffer shorter than a block (10_state.md R28). -/
theorem absorb_buf_lt (r : SpRegs) (msg : List Byte) (h : r.buf.length < r.var.rate) :
    (r.absorb msg).buf.length < r.var.rate := by
  induction msg generalizing r with
  | nil => simpa [absorb_nil] using h
  | cons b msg ih =>
    obtain ⟨h1, h2⟩ | ⟨h1, h2⟩ := absorbByte_cases r b
    · simpa [absorb_cons, h2] using ih (r.absorbByte b) (by simp [h2]; omega)
    · simpa [absorb_cons, h2] using ih (r.absorbByte b) (by simp [h2]; omega)

/-- The next chunk, case by case: a used-up one is permuted away, any other stays (41_sponge.md R154). -/
theorem nextChunk_cases (r : SpRegs) :
    (r.sqOff = r.var.rate ∧ r.nextChunk = { r with lanes := keccakF r.lanes, sqOff := 0 }) ∨
    (r.sqOff ≠ r.var.rate ∧ r.nextChunk = r) := by
  by_cases h : r.sqOff = r.var.rate <;> simp [SpRegs.nextChunk, h]

@[simp] theorem squeezeBytes_length (n : Nat) (r : SpRegs) : (squeezeBytes n r).1.length = n := by
  induction n generalizing r with
  | zero => rfl
  | succ n ih => simp [squeezeBytes, ih]

/-- Squeezing leaves variant, phase and buffer (41_sponge.md R159). -/
theorem squeezeBytes_frame (n : Nat) (r : SpRegs) :
    (squeezeBytes n r).2.var = r.var ∧ (squeezeBytes n r).2.phase = r.phase ∧ (squeezeBytes n r).2.buf = r.buf := by
  induction n generalizing r with
  | zero => simp [squeezeBytes]
  | succ n ih =>
    obtain ⟨-, h⟩ | ⟨-, h⟩ := nextChunk_cases r <;> simp [squeezeBytes, ih, h]

/-- Squeezing keeps the offset within a chunk (10_state.md R27, R28). -/
theorem squeezeBytes_sqOff_le (n : Nat) (r : SpRegs) (h : r.sqOff ≤ r.var.rate) :
    (squeezeBytes n r).2.sqOff ≤ r.var.rate := by
  induction n generalizing r with
  | zero => simpa [squeezeBytes] using h
  | succ n ih =>
    have hp := rate_pos r.var
    obtain ⟨h1, h2⟩ | ⟨h1, h2⟩ := nextChunk_cases r
    · have h3 : 0 + 1 ≤ r.var.rate := by omega
      simpa [squeezeBytes, h2] using ih { r with lanes := keccakF r.lanes, sqOff := 0 + 1 } h3
    · simpa [squeezeBytes, h2] using ih { r with sqOff := r.sqOff + 1 } (by simp; omega)

/-- Squeezing a and then b bytes gives what squeezing a + b bytes gives (41_sponge.md R162 (c)). -/
theorem squeezeBytes_add (a b : Nat) (r : SpRegs) :
    squeezeBytes (a + b) r =
      ((squeezeBytes a r).1 ++ (squeezeBytes b (squeezeBytes a r).2).1, (squeezeBytes b (squeezeBytes a r).2).2) := by
  induction a generalizing r with
  | zero => simp [squeezeBytes]
  | succ a ih =>
    rw [Nat.add_right_comm]
    simp only [squeezeBytes, ih, List.cons_append]

end Sys2Proof.Machine
end

