-- ==== Sys2Proof/Laws/Stream.lean ====
section
/-! SUPPORT. What each shared operation of the streaming controller can do (43_blake2_streaming.md R223, R228 to
R230). -/

namespace Sys2Proof.Machine

variable {w : Nat}

/-- The length of the parameter block: ten bytes beside the node offset, the reserved field, salt and personalization
(43_blake2_streaming.md R221, R222). -/
theorem paramBlock_length (p : B2Params w) (r : B2Regs w) :
    (paramBlock p r).length = 10 + p.nodeOffsetLen + p.reservedLen + r.salt.length + r.pers.length := by
  simp [paramBlock]; omega

/-- `InitState()` leaves the parameter registers (43_blake2_streaming.md R223). -/
theorem initState_frame (p : B2Params w) (r : B2Regs w) :
    (r.initState p).dlen = r.dlen ∧ (r.initState p).klen = r.klen ∧ (r.initState p).key = r.key ∧
      (r.initState p).salt = r.salt ∧ (r.initState p).pers = r.pers := ⟨rfl, rfl, rfl, rfl, rfl⟩

/-- `InitState()` looks at the parameter registers only (43_blake2_streaming.md R223). -/
theorem initState_congr (p : B2Params w) (r r' : B2Regs w) (hd : r.dlen = r'.dlen) (hk : r.klen = r'.klen)
    (hkey : r.key = r'.key) (hs : r.salt = r'.salt) (hp : r.pers = r'.pers) : r.initState p = r'.initState p := by
  cases r; cases r'; simp_all [B2Regs.initState, paramBlock]

/-- A word of the chain value `InitState()` leaves (43_blake2_streaming.md R223). -/
theorem initState_h_getElem (p : B2Params w) (r : B2Regs w) (i : Nat) (hi : i < 8) :
    (r.initState p).h[i] = p.iv[i] ^^^ leWord w (slice (paramBlock p r) (w / 8 * i) (w / 8)) := by
  simp [B2Regs.initState, wordsOfBytes]

/-- `CompressBuf` changes counter and chain value only (43_blake2_streaming.md R230). -/
theorem compressBuf_frame (p : B2Params w) (r : B2Regs w) (last : Bool) :
    r.compressBuf p last = { r with t := (r.compressBuf p last).t, h := (r.compressBuf p last).h } := rfl

/-- Taking in a byte, case by case: a full buffer is compressed and replaced by the byte, any other grows by it
(43_blake2_streaming.md R228). -/
theorem updateByte_cases (p : B2Params w) (r : B2Regs w) (b : Byte) :
    (r.buf.length = blockBytes w ∧ r.updateByte p b = { r.compressBuf p false with buf := [b] }) ∨
    (r.buf.length ≠ blockBytes w ∧ r.updateByte p b = { r with buf := r.buf ++ [b] }) := by
  by_cases h : r.buf.length = blockBytes w <;> simp [B2Regs.updateByte, B2Regs.blockFull, h]

/-- Taking in bytes leaves the parameter registers and the phase (43_blake2_streaming.md R228). -/
theorem updateBytes_frame (p : B2Params w) (r : B2Regs w) (msg : List Byte) :
    (msg.foldl (B2Regs.updateByte p) r).dlen = r.dlen ∧ (msg.foldl (B2Regs.updateByte p) r).klen = r.klen ∧
      (msg.foldl (B2Regs.updateByte p) r).key = r.key ∧ (msg.foldl (B2Regs.updateByte p) r).salt = r.salt ∧
      (msg.foldl (B2Regs.updateByte p) r).pers = r.pers ∧ (msg.foldl (B2Regs.updateByte p) r).phase = r.phase := by
  induction msg generalizing r with
  | nil => simp
  | cons b msg ih =>
    obtain ⟨-, h⟩ | ⟨-, h⟩ := updateByte_cases p r b <;>
      simpa [h, B2Regs.compressBuf] using ih (r.updateByte p b)

/-- Taking in bytes keeps the buffer at most a block long (10_state.md R33, R35). -/
theorem updateBytes_buf_le (p : B2Params w) (r : B2Regs w) (msg : List Byte) (hb : 1 ≤ blockBytes w)
    (h : r.buf.length ≤ blockBytes w) : (msg.foldl (B2Regs.updateByte p) r).buf.length ≤ blockBytes w := by
  induction msg generalizing r with
  | nil => simpa using h
  | cons b msg ih =>
    obtain ⟨h1, h2⟩ | ⟨h1, h2⟩ := updateByte_cases p r b
    · exact ih (r.updateByte p b) (by simpa [h2] using hb)
    · exact ih (r.updateByte p b) (by simp [h2]; omega)

/-- Taking in at least one byte leaves a buffer that is not empty: the look-ahead (43_blake2_streaming.md R228). -/
theorem updateBytes_buf_ne_nil (p : B2Params w) (r : B2Regs w) (msg : List Byte) (h : r.buf ≠ [] ∨ msg ≠ []) :
    (msg.foldl (B2Regs.updateByte p) r).buf ≠ [] := by
  induction msg generalizing r with
  | nil => simpa using h
  | cons b msg ih =>
    refine ih (r.updateByte p b) (.inl ?_)
    obtain ⟨-, h⟩ | ⟨-, h⟩ := updateByte_cases p r b <;> simp [h]

/-- Updating in two pieces takes in both before the phase is set (43_blake2_streaming.md R228, R232). -/
theorem updateBytes_phase (p : B2Params w) (r : B2Regs w) (ph : B2Phase) (msg : List Byte) :
    msg.foldl (B2Regs.updateByte p) { r with phase := ph } =
      { msg.foldl (B2Regs.updateByte p) r with phase := ph } := by
  induction msg generalizing r with
  | nil => rfl
  | cons b msg ih =>
    have h : B2Regs.updateByte p { r with phase := ph } b = { B2Regs.updateByte p r b with phase := ph } := by
      obtain ⟨h1, h2⟩ | ⟨h1, h2⟩ := updateByte_cases p r b <;>
        simp [B2Regs.updateByte, B2Regs.blockFull, B2Regs.compressBuf, h1]
    simpa [h] using ih (r.updateByte p b)

/-- Updating in two pieces is updating with their concatenation (43_blake2_streaming.md R232 (a)). -/
theorem update_append (p : B2Params w) (r : B2Regs w) (a b : List Byte) :
    (r.update p a).update p b = r.update p (a ++ b) := by
  simp only [B2Regs.update, updateBytes_phase, List.foldl_append]

end Sys2Proof.Machine
end

