-- ==== Sys2Proof/Tests/Slice0.lean ====
section
/-! SUPPORT. Tests. Every expected value is the spec's (95_test_vectors.md, or an encoding written out from 30_encoding.md);
the last part gives, for the statements with hypotheses, states and operands that meet them. -/

namespace Sys2Proof.Tests

set_option maxRecDepth 100000
set_option Elab.async false

open Sys2Proof Sys2Proof.Machine Sys2Proof.Reference

/-- `pat(n)` of 95_test_vectors.md. -/
def pat (n : Nat) : List Byte := (List.range n).map fun i => BitVec.ofNat 8 (i % 251)

/-- n bytes written as one number, first byte first, as 95_test_vectors.md writes x"…". -/
def hex (n v : Nat) : List Byte := (natBytes n v).reverse

/-- The bytes of "abc". -/
def abc : List Byte := hex 3 0x616263

/-- A core whose sponge has zero lanes. -/
def sponge (v : SpVar) (ph : SpPhase) (buf : List Byte) (off : Nat) : State :=
  { State.reset with sp := .configured ⟨ph, v, Vector.replicate 25 0, buf, off⟩ }

/-- The registers of a BLAKE2b controller with a 64-byte digest and no key. -/
def regsB (ph : B2Phase) (buf : List Byte) : B2Regs 64 :=
  ⟨ph, 64, 0, [], zeros 16, zeros 16, chainStart paramsB 64 0 [] [], 0, buf⟩

/-- The registers of a BLAKE2s controller with a 32-byte digest and no key. -/
def regsS (ph : B2Phase) (buf : List Byte) : B2Regs 32 :=
  ⟨ph, 32, 0, [], zeros 8, zeros 8, chainStart paramsS 32 0 [] [], 0, buf⟩

def ctrlB (ph : B2Phase) (buf : List Byte) : State := { State.reset with b2 := .blake2b (regsB ph buf) }

def ctrlS (ph : B2Phase) (buf : List Byte) : State := { State.reset with b2 := .blake2s (regsS ph buf) }

/-- The response to the last command. -/
def last (o : Host.Outcome State Fault Refusal) : Option Response :=
  match o with
  | .next t => t.responses.getLast?
  | .fault _ => none
  | .refused _ => none

/-- A view of the state after. -/
def view {α : Type} (f : State → α) (o : Host.Outcome State Fault Refusal) : Option α :=
  match o with
  | .next t => some (f t)
  | .fault _ => none
  | .refused _ => none

def spOf (f : SpRegs → Nat) (s : State) : Option Nat :=
  match s.sp with
  | .unconfigured => none
  | .configured r => some (f r)

def b2bOf {α : Type} (f : B2Regs 64 → α) (s : State) : Option α :=
  match s.b2 with
  | .unconfigured => none
  | .blake2b r => some (f r)
  | .blake2s _ => none

def b2sOf {α : Type} (f : B2Regs 32 → α) (s : State) : Option α :=
  match s.b2 with
  | .unconfigured => none
  | .blake2b _ => none
  | .blake2s r => some (f r)

/-! ## Ill-formed instructions are refused -/

theorem test_wf_spAbsorb :
    (Instr.spAbsorb (List.replicate (Config.lenMax + 1) 0)).wellFormed = false ∧
      (Instr.spAbsorb (List.replicate Config.lenMax 0)).wellFormed = true := by
  simp [Instr.wellFormed]

theorem test_wf_b2cUpdate :
    (Instr.b2cUpdate (List.replicate (Config.lenMax + 1) 0)).wellFormed = false ∧
      (Instr.b2cUpdate (List.replicate Config.lenMax 0)).wellFormed = true := by
  simp [Instr.wellFormed]

theorem test_wf_b2bInit :
    (Instr.b2bInit 64 (zeros 128) [] []).wellFormed = false ∧ (Instr.b2bInit 64 [] (zeros 32) []).wellFormed = false ∧
      (Instr.b2bInit 64 [] [] (zeros 32)).wellFormed = false ∧
      (Instr.b2bInit 64 (zeros 127) (zeros 31) (zeros 31)).wellFormed = true := by decide

theorem test_wf_b2sInit :
    (Instr.b2sInit 32 (zeros 128) [] []).wellFormed = false ∧ (Instr.b2sInit 32 [] (zeros 32) []).wellFormed = false ∧
      (Instr.b2sInit 32 [] [] (zeros 32)).wellFormed = false ∧
      (Instr.b2sInit 32 (zeros 127) (zeros 31) (zeros 31)).wellFormed = true := by decide

/-! ## Decoding: words written out from 30_encoding.md (V-ENC-1) -/

-- Byte 8 is the low byte of lane 1, byte 199 the high byte of lane 24.
theorem test_decode_kfPermute :
    decode ⟨0b00000000000000000000000000000001, zeros 8 ++ [0x2A] ++ zeros 190 ++ [0x80]⟩ =
      .ok (.kfPermute (((Vector.replicate 25 0).set 1 0x2A).set 24 0x8000000000000000)) := by decide +kernel

-- VAR = 5 in W[11:8].
theorem test_decode_spInit : decode ⟨0b00000000000000000000_0101_00010000, []⟩ = .ok (.spInit .shake256) := by
  decide +kernel

theorem test_decode_spReset : decode ⟨0b000000000000000000000000_00010001, []⟩ = .ok .spReset := by decide +kernel

-- LEN = 3 in W[31:8].
theorem test_decode_spAbsorb :
    decode ⟨0b000000000000000000000011_00010010, abc⟩ = .ok (.spAbsorb [0x61, 0x62, 0x63]) := by decide +kernel

theorem test_decode_spFinalize : decode ⟨0b000000000000000000000000_00010011, []⟩ = .ok .spFinalize := by
  decide +kernel

-- LEN = 400 = 0x190, no payload.
theorem test_decode_spSqueeze : decode ⟨0b000000000000000110010000_00010100, []⟩ = .ok (.spSqueeze 400) := by
  decide +kernel

theorem test_decode_spDigest : decode ⟨0b000000000000000000000000_00010101, []⟩ = .ok .spDigest := by decide +kernel

-- LAST = 1 in W[8]; h, m, t0, t1 little-endian, eight bytes each.
theorem test_decode_b2bCompress :
    decode ⟨0b00000000000000000000000_1_00100000,
        hex 8 0x0102030405060708 ++ zeros 56 ++ abc ++ zeros 125 ++ hex 8 0x0300000000000000 ++
          hex 8 0x0000000000000080⟩ =
      .ok (.b2bCompress true ((Vector.replicate 8 0).set 0 0x0807060504030201) ((Vector.replicate 16 0).set 0 0x636261)
        3 0x8000000000000000) := by decide +kernel

-- LAST = 0; four bytes each.
theorem test_decode_b2sCompress :
    decode ⟨0b00000000000000000000000_0_00100001,
        zeros 28 ++ hex 4 0x01020304 ++ zeros 60 ++ hex 4 0x0A0B0C0D ++ hex 4 0x41000000 ++ hex 4 0x01000000⟩ =
      .ok (.b2sCompress false ((Vector.replicate 8 0).set 7 0x04030201) ((Vector.replicate 16 0).set 15 0x0D0C0B0A)
        0x41 1) := by decide +kernel

-- PLEN = 16, SLEN = 16, KLEN = 16, DLEN = 32: the word 0x84082030 of V-ENC-1.
theorem test_decode_b2bInit :
    decode ⟨0b10000_10000_0010000_0100000_00110000, pat 16 ++ zeros 16 ++ pat 16⟩ =
      .ok (.b2bInit 32 (pat 16) (zeros 16) (pat 16)) := by decide +kernel

-- PLEN = 8, SLEN = 8, KLEN = 32, DLEN = 16: the word 0x42101031.
theorem test_decode_b2sInit :
    decode ⟨0b01000_01000_0100000_0010000_00110001, pat 32 ++ pat 8 ++ zeros 8⟩ =
      .ok (.b2sInit 16 (pat 32) (pat 8) (zeros 8)) := by decide +kernel

theorem test_decode_b2cReset : decode ⟨0b000000000000000000000000_00110010, []⟩ = .ok .b2cReset := by decide +kernel

-- LEN = 129.
theorem test_decode_b2cUpdate :
    decode ⟨0b000000000000000010000001_00110011, pat 129⟩ = .ok (.b2cUpdate (pat 129)) := by decide +kernel

theorem test_decode_b2cFinal : decode ⟨0b000000000000000000000000_00110100, []⟩ = .ok .b2cFinal := by decide +kernel

-- REG in W[15:8].
theorem test_decode_rdreg :
    decode ⟨0b0000000000000000_00000000_01000000, []⟩ = .ok (.rdreg .id) ∧
      decode ⟨0b0000000000000000_00010000_01000000, []⟩ = .ok (.rdreg .spStatus) ∧
      decode ⟨0b0000000000000000_00010001_01000000, []⟩ = .ok (.rdreg .spRate) ∧
      decode ⟨0b0000000000000000_00010010_01000000, []⟩ = .ok (.rdreg .spDlen) ∧
      decode ⟨0b0000000000000000_00100000_01000000, []⟩ = .ok (.rdreg .b2Status) ∧
      decode ⟨0b0000000000000000_00100001_01000000, []⟩ = .ok (.rdreg .b2Dlen) ∧
      decode ⟨0b0000000000000000_00100010_01000000, []⟩ = .ok (.rdreg .b2Klen) := by decide +kernel

/-- The illegal commands of V-ENC-2. -/
def illegalCommands : List Command :=
  [⟨0x00000000, []⟩, ⟨0x00000002, []⟩, ⟨0x00000016, []⟩, ⟨0x00000022, []⟩, ⟨0x00000035, []⟩, ⟨0x00000041, []⟩,
    ⟨0x000000FF, []⟩, ⟨0x00000111, []⟩, ⟨0x80000013, []⟩, ⟨0x00000610, []⟩, ⟨0x00000F10, []⟩, ⟨0x00001110, []⟩,
    ⟨0x00000220, zeros 208⟩, ⟨0x00000020, zeros 207⟩, ⟨0x00000021, zeros 208⟩, ⟨0x00000340, []⟩, ⟨0x00001340, []⟩,
    ⟨0x00011040, []⟩, ⟨0x00001040, [0]⟩, ⟨0x00000312, [0x61, 0x62]⟩, ⟨0x00000012, [0x61]⟩, ⟨0x00000414, pat 4⟩,
    ⟨0x00000133, []⟩, ⟨0x00024030, abc⟩, ⟨0x00000030, [0x61]⟩, ⟨0x00000015, [0]⟩, ⟨0x00000001, []⟩]

theorem test_illegal_commands :
    illegalCommands.map (fun c => last (step ((sponge .sha3_256 .squeezing [] 0).deliver c))) =
      illegalCommands.map (fun _ => some ⟨.illegalCommand, []⟩) := by decide +kernel

/-! ## Keccak (V-KF-10 to V-KF-14, V-KF-2) -/

theorem test_theta :
    theta ((Vector.replicate 25 0).set 0 1) =
      #v[1, 1, 0, 0, 2, 0, 1, 0, 0, 2, 0, 1, 0, 0, 2, 0, 1, 0, 0, 2, 0, 1, 0, 0, 2] := by decide +kernel

theorem test_rho :
    ((rho (Vector.replicate 25 1)).toList.take 4, (rho (Vector.replicate 25 1))[24],
        (rho (Vector.replicate 25 0x8000000000000000))[1]) =
      ([0x1, 0x2, 0x4000000000000000, 0x10000000], 0x4000, 0x1) := by decide +kernel

theorem test_pi :
    pi (Vector.ofFn fun i => BitVec.ofNat 64 i.val) =
      #v[0, 6, 12, 18, 24, 3, 9, 10, 16, 22, 1, 7, 13, 19, 20, 4, 5, 11, 17, 23, 2, 8, 14, 15, 21] := by
  decide +kernel

theorem test_chi :
    (chi (Vector.ofFn fun i => [0x01, 0x03, 0x07, 0x0F, 0x1F].getD i.val 0)).toList =
      [0x05, 0x0B, 0x17, 0x0F, 0x1D] ++ List.replicate 20 0 := by decide +kernel

-- `Round(T, 0)`, its row y = 0 and its last lane.
theorem test_keccakRound :
    (let a := keccakRound roundConstants[0] (Vector.ofFn fun i => BitVec.ofNat 64 ((i.val + 1) * 0x0123456789ABCDEF))
     (a.toList.take 5, a[24])) =
      ([0x53DCFFEEEA479E55, 0xBC6917E90580BF0F, 0xA45BC89C368596F4, 0x08451BC762462E85, 0x6B3AB204EFFF42A4],
        0x29C527E79E4D7683) := by decide +kernel

-- Program P5, step 1: the padded block of "abc" as a whole state.
theorem test_kfPermute :
    (last (exec (.kfPermute (lanesOfBytes (abc ++ [0x06] ++ zeros 131 ++ [0x80] ++ zeros 64))) State.reset)).map
        (fun r => (r.status, r.out.length, r.out.take 40)) =
      some (.ok, 200, hex 40 0x3A985DA74FE225B2045C172D6BD390BD855F086E3E9D525B46BFE24511431532D136F622FB9210F8) := by
  decide +kernel

/-! ## The sponge -/

-- V-SPH-3, V-SPH-2: suffix and final bit in one byte; an empty buffer.
theorem test_padBlock :
    (padBlock (pat 135) 0x06 136).drop 134 = [134, 0x86] ∧ (padBlock (pat 167) 0x1F 168).drop 166 = [166, 0x9F] ∧
      padBlock [] 0x06 72 = [0x06] ++ zeros 70 ++ [0x80] := by decide +kernel

-- V-SPH-1: the lanes before the permutation.
theorem test_xorBlock :
    (let a := xorBlock 136 (Vector.replicate 25 0) (padBlock abc 0x06 136)
     (a[0], a[1], a[16], a[17])) = (0x0000000006636261, 0, 0x8000000000000000, 0) := by decide +kernel

theorem test_spInit :
    view (spOf fun r => r.var.rate + r.buf.length + r.sqOff) (exec (.spInit .shake128) (sponge .sha3_256 .squeezing [] 7)) =
        some (some 168) ∧
      view (fun t => t.sp.phaseCode) (exec (.spInit .shake128) (sponge .sha3_256 .squeezing [] 7)) = some 1 := by
  decide +kernel

theorem test_spReset :
    view (fun t => t.sp) (exec .spReset (sponge .shake256 .squeezing [] 9)) =
        some (sponge .shake256 .absorbing [] 0).sp ∧
      last (exec .spReset State.reset) = some ⟨.sequencingError, []⟩ := by decide +kernel

-- V-SPH-1: three bytes are buffered, no permutation runs.
theorem test_spAbsorb_buffers :
    view (fun t => t.sp) (exec (.spAbsorb abc) (sponge .sha3_256 .absorbing [] 0)) =
      some (sponge .sha3_256 .absorbing abc 0).sp := by decide +kernel

-- V-SPH-4: a full block is absorbed at once; lane 0.
theorem test_spAbsorb_block :
    view (spOf fun r => r.lanes[0].toNat + r.buf.length) (exec (.spAbsorb [135]) (sponge .sha3_256 .absorbing (pat 135) 0)) =
      some (some 0xC9834334D2362F28) := by decide +kernel

-- V-SP-17: the first bytes of the SHAKE128 stream of the empty message, after `SP.FINALIZE`.
theorem test_spFinalize_spSqueeze :
    last (execAll [.spFinalize, .spSqueeze 32] (sponge .shake128 .absorbing [] 0)) =
      some ⟨.ok, hex 32 0x7F9C2BA4E88F827D616045507605853ED73B8093F6EFBC88EB1A6EACFA66EF26⟩ := by decide +kernel

-- S-9: squeezing nothing does not permute even at the end of a chunk.
theorem test_spSqueeze_zero :
    view (fun t => (t.sp, t.responses)) (exec (.spSqueeze 0) (sponge .shake128 .squeezing [] 168)) =
      some ((sponge .shake128 .squeezing [] 168).sp, [⟨.ok, []⟩]) := by decide +kernel

-- S-8: SHA3-256 of the empty message.
theorem test_spDigest :
    last (exec .spDigest (sponge .sha3_256 .absorbing [] 0)) =
      some ⟨.ok, hex 32 0xA7FFC6F8BF1ED76651C14756A061D662F580FF4DE43B49FA82D80A4B80F8434A⟩ := by decide +kernel

/-- The commands of the table V-ERR-1 that are refused somewhere. -/
def spCommands : List Instr := [.spReset, .spAbsorb [0], .spAbsorb [], .spFinalize, .spSqueeze 1, .spSqueeze 0, .spDigest]

-- V-ERR-1: the columns U, S with SHA3-256, and the refused cells of the columns A.
theorem test_sponge_sequencing_errors :
    (spCommands.map fun i => last (exec i State.reset)) = spCommands.map (fun _ => some ⟨.sequencingError, []⟩) ∧
      (spCommands.tail.map fun i => last (exec i (sponge .sha3_256 .squeezing [] 0))) =
        spCommands.tail.map (fun _ => some ⟨.sequencingError, []⟩) ∧
      last (exec (.spSqueeze 0) (sponge .sha3_256 .absorbing [] 0)) = some ⟨.sequencingError, []⟩ ∧
      last (exec (.spSqueeze 1) (sponge .shake128 .absorbing [] 0)) = some ⟨.sequencingError, []⟩ ∧
      last (exec .spDigest (sponge .shake128 .absorbing [] 0)) = some ⟨.sequencingError, []⟩ ∧
      last (exec .spDigest (sponge .shake128 .squeezing [] 0)) = some ⟨.sequencingError, []⟩ := by decide +kernel

/-! ## The compression functions -/

-- V-G-2 and V-G-3: `G` of `F_s`, and the wrap in `G` of `F_b`.
theorem test_mixG :
    (mixG paramsS (Vector.replicate 16 0) 0 1 2 3 1 0).toList.take 4 =
        [0x00000011, 0x20220202, 0x11010100, 0x11000100] ∧
      (mixG paramsB ((Vector.replicate 16 0).set 0 0xFFFFFFFFFFFFFFFF |>.set 1 1) 0 1 2 3 0 0).toList.take 4 =
        [0x0000010000000000, 0x0000020002000000, 0x0000000001000000, 0x0000000001000000] := by decide +kernel

-- V-B2F-1: the one block of BLAKE2b-512("abc").
theorem test_b2bCompress :
    last (exec (.b2bCompress true (chainStart paramsB 64 0 [] []) ((Vector.replicate 16 0).set 0 0x636261) 3 0)
        State.reset) =
      some ⟨.ok, hex 64 0xBA80A53F981C4D0D6A2797B69F12F6E94C212F14685AC4B74B12BB6FDBFFA2D17D87C5392AAB792DC252D5DE4533CC9518D38AA8DBF1925AB92386EDD4009923⟩ := by
  decide +kernel

-- Program P4, step 1: an interior block of BLAKE2s-256.
theorem test_b2sCompress :
    last (exec (.b2sCompress false (chainStart paramsS 32 0 [] []) (wordsOfBytes 32 16 (pat 64)) 64 0) State.reset) =
      some ⟨.ok, hex 32 0xDC6EB86975BB749C2E10BD252940F283C1329D9ABB5022A074A7A03A1D3EB9E4⟩ := by decide +kernel

/-! ## The streaming controller -/

-- V-B2H-1 with key, salt and personalization.
theorem test_b2bInit :
    view (b2bOf fun r => ([r.h[0] ^^^ 0x6A09E667F3BCC908, r.h[4] ^^^ 0x510E527FADE682D1, r.h[7] ^^^ 0x5BE0CD19137E2179],
        r.buf, r.t))
      (exec (.b2bInit 32 (pat 16) (hex 16 0xA0A1A2A3A4A5A6A7A8A9AAABACADAEAF)
        (hex 16 0xC0C1C2C3C4C5C6C7C8C9CACBCCCDCECF)) State.reset) =
      some (some ([0x0000000001011020, 0xA7A6A5A4A3A2A1A0, 0xCFCECDCCCBCAC9C8], pat 16 ++ zeros 112, 0)) := by
  decide +kernel

-- V-B2H-1 for BLAKE2s.
theorem test_b2sInit :
    view (b2sOf fun r => ([r.h[0] ^^^ 0x6A09E667, r.h[1], r.h[5] ^^^ 0x9B05688C, r.h[6] ^^^ 0x1F83D9AB], r.buf))
      (exec (.b2sInit 32 [] (hex 8 0xA0A1A2A3A4A5A6A7) (hex 8 0xC0C1C2C3C4C5C6C7)) State.reset) =
      some (some ([0x01010020, 0xBB67AE85, 0xA7A6A5A4, 0xC3C2C1C0], [])) := by decide +kernel

-- S-5: the bounds, each failing one.
theorem test_init_bounds :
    ([.b2bInit 0 [] [] [], .b2bInit 65 [] [] [], .b2bInit 64 [] (zeros 15) [], .b2bInit 64 [] (zeros 17) [],
        .b2bInit 64 (zeros 65) [] [], .b2sInit 33 [] [] [], .b2sInit 32 [] [] (zeros 16)].map
      fun i => last (exec i (ctrlB .finalized []))) = List.replicate 7 (some ⟨.configurationError, []⟩) ∧
    ([.b2bInit 64 [] (zeros 16) [], .b2bInit 64 (zeros 64) [] [], .b2sInit 32 (zeros 32) [] []].map
      fun i => last (exec i (ctrlB .finalized []))) = List.replicate 3 (some ⟨.ok, []⟩) := by decide +kernel

-- V-B2H-3: the key block is in the buffer again.
theorem test_b2cReset :
    view (b2bOf fun r => (r.phase, r.buf, r.t))
      (execAll [.b2bInit 64 (pat 64) [] [], .b2cUpdate [], .b2cReset] State.reset) =
      some (some (.initialized, pat 64 ++ zeros 64, 0)) := by decide +kernel

-- V-B2H-2: a full buffer is kept back.
theorem test_b2cUpdate_keeps_back :
    view (b2bOf fun r => (r.phase, r.buf, r.t, r.h)) (exec (.b2cUpdate (pat 128)) (ctrlB .initialized [])) =
      some (some (.updating, pat 128, 0, chainStart paramsB 64 0 [] [])) := by decide +kernel

-- V-B2H-2: one byte more compresses it. V-B2H-4: two compressions for 192 bytes of BLAKE2s.
theorem test_b2cUpdate_compresses :
    view (b2bOf fun r => (r.buf, r.t)) (exec (.b2cUpdate [0x80]) (ctrlB .updating (pat 128))) =
        some (some ([0x80], 128)) ∧
      view (b2sOf fun r => (r.buf, r.t)) (exec (.b2cUpdate (pat 192)) (ctrlS .initialized [])) =
        some (some ((pat 192).drop 128, 128)) := by decide +kernel

-- V-B2C-1.
theorem test_b2cFinal_b :
    last (exec .b2cFinal (ctrlB .initialized [])) =
      some ⟨.ok, hex 64 0x786A02F742015903C6C6FD852552D272912F4740E15847618A86E217F71F5419D25E1031AFEE585313896444934EB04B903A685B1448B755D56F701AFE9BE2CE⟩ := by
  decide +kernel

-- V-B2C-4.
theorem test_b2cFinal_s :
    last (exec .b2cFinal (ctrlS .updating abc)) =
      some ⟨.ok, hex 32 0x508C5E8C327C14E2E1A72BA34EEB452F37458B209ED63A294D999B4C86675982⟩ := by decide +kernel

-- V-B2H-5: the carry from `t0` into `t1`, and the wrap.
theorem test_counter_carry :
    (({ regsS .updating (pat 64) with t := 0xFFFFFFC0 } : B2Regs 32).compressBuf paramsS false).t = 0x100000000 ∧
      (({ regsS .updating (pat 64) with t := 0xFFFFFFFFFFFFFFC0 } : B2Regs 32).compressBuf paramsS false).t = 0 := by
  decide +kernel

-- V-ERR-2.
theorem test_stream_sequencing_errors :
    ([.b2cReset, .b2cUpdate [0], .b2cUpdate [], .b2cFinal].map fun i => last (exec i State.reset)) =
        List.replicate 4 (some ⟨.sequencingError, []⟩) ∧
      ([.b2cUpdate [0], .b2cUpdate [], .b2cFinal].map fun i => last (exec i (ctrlS .finalized abc))) =
        List.replicate 3 (some ⟨.sequencingError, []⟩) := by decide +kernel

/-! ## RDREG -/

-- V-RD-1 to V-RD-7, V-RD-15, V-RD-17, V-RD-20.
theorem test_rdreg_sponge :
    ([.id, .spStatus, .spRate, .spDlen, .b2Status, .b2Dlen, .b2Klen].map fun g => last (exec (.rdreg g) State.reset)) =
        some ⟨.ok, hex 4 0x4343454B⟩ :: List.replicate 6 (some ⟨.ok, zeros 4⟩) ∧
      last (exec (.rdreg .spStatus) (sponge .shake128 .squeezing [] 0)) = some ⟨.ok, hex 4 0x42010000⟩ ∧
      last (exec (.rdreg .spRate) (sponge .shake256 .absorbing [] 0)) = some ⟨.ok, hex 4 0x88000000⟩ ∧
      last (exec (.rdreg .spDlen) (sponge .sha3_224 .absorbing [] 0)) = some ⟨.ok, hex 4 0x1C000000⟩ := by decide +kernel

-- V-RD-24 to V-RD-26.
theorem test_rdreg_stream :
    ([.b2Status, .b2Dlen, .b2Klen].map fun g =>
        last (execAll [.b2sInit 20 (pat 7) [] [], .rdreg g] State.reset)) =
      [some ⟨.ok, hex 4 0x11000000⟩, some ⟨.ok, hex 4 0x14000000⟩, some ⟨.ok, hex 4 0x07000000⟩] := by decide +kernel

/-! ## The step -/

-- Program P1, steps 1 to 5 and 9, through words.
theorem test_step_runs :
    (match core.run 6 { State.reset with
        commands := [⟨0x00001040, []⟩, ⟨0x00000110, []⟩, ⟨0x00001040, []⟩, ⟨0x00000112, hex 1 0x61⟩,
          ⟨0x00000212, hex 2 0x6263⟩, ⟨0x00000114, []⟩] } with
      | .next t => State.responses t
      | .fault _ => []
      | .refused _ => []) =
      [⟨.ok, zeros 4⟩, ⟨.ok, []⟩, ⟨.ok, hex 4 0x11000000⟩, ⟨.ok, []⟩, ⟨.ok, []⟩, ⟨.sequencingError, []⟩] := by
  decide +kernel

theorem test_withFetchWord :
    (State.reset.withFetchWord 32 0x00000312).commands = [⟨0x00000312, [0, 0, 0]⟩] ∧
      decodeTableWord 32 0x00000312 = some (.spAbsorb [0, 0, 0]) ∧ decodeTableWord 32 0x00000016 = none ∧
      last (step (State.reset.withFetchWord 32 0x00000040)) = some ⟨.ok, hex 4 0x4343454B⟩ := by decide +kernel

/-! ## Witnesses: the hypotheses of each statement are met together, at the limits of their ranges -/

theorem test_witness_DecodeOfEncode :
    (Instr.b2cUpdate (List.replicate Config.lenMax 0)).wellFormed = true ∧ (Instr.rdreg .b2Klen).wellFormed = true := by
  simp [Instr.wellFormed]

theorem test_witness_EncodeOfDecode : decode ⟨0xFFFFFF14, []⟩ = .ok (.spSqueeze 0xFFFFFF) := by decide +kernel

/-- Each of the causes (a) to (e) of 30_encoding.md R101 next to a legal command. -/
theorem test_witness_IllegalCommandsExactly :
    (∀ c ∈ [(⟨0x41, []⟩ : Command), ⟨0x00010040, []⟩, ⟨0x610, []⟩, ⟨0x1340, []⟩, ⟨0x312, [0, 0]⟩],
      (State.reset.deliver c).commands = c :: [] ∧ illegal c) ∧
    ∀ c ∈ [(⟨0x40, []⟩ : Command), ⟨0x510, []⟩, ⟨0x1240, []⟩, ⟨0x312, [0, 0, 0]⟩],
      (State.reset.deliver c).commands = c :: [] ∧ ¬ illegal c := by
  unfold illegal
  decide +kernel

theorem test_witness_StepRunsTheDecodedCommand :
    (State.reset.deliver ⟨0x11, []⟩).commands = ⟨0x11, []⟩ :: [] ∧ decode ⟨0x11, []⟩ = .ok .spReset := by
  decide +kernel

theorem test_witness_StepWaitsWithoutCommand : State.reset.commands = [] := rfl

theorem test_witness_EveryCommandGetsOneResponse :
    (State.reset.deliver ⟨0xFF, [1]⟩).commands = ⟨0xFF, [1]⟩ :: [] := rfl

theorem test_witness_RunOfEncodedCommands :
    ∀ i ∈ [Instr.spInit .shake128, .b2bInit 0 [] [] [], .spAbsorb abc, .spDigest], i.wellFormed = true := by decide +kernel

/-- Three commands that end in the three errors (60_exceptions.md R271, R272, R275). -/
theorem test_witness_ErrorsChangeNothing :
    ∀ c ∈ [(⟨0x30, []⟩ : Command), ⟨0x11, []⟩, ⟨0x0, []⟩], ∃ (s t : State) (r : Response), s.commands = c :: [] ∧
      step s = .next t ∧ t.responses = s.responses ++ [r] ∧ r.status ≠ .ok := by
  have key : ∀ c : Command, last (step (State.reset.deliver c)) ≠ some ⟨.ok, []⟩ →
      (∃ st, step (State.reset.deliver c) = raise st ((State.reset.deliver c).taking [])) →
      ∃ (s t : State) (r : Response), s.commands = c :: [] ∧ step s = .next t ∧ t.responses = s.responses ++ [r] ∧
        r.status ≠ .ok := by
    rintro c h1 ⟨st, h2⟩
    refine ⟨State.reset.deliver c, _, ⟨st, []⟩, rfl, h2, rfl, ?_⟩
    rintro rfl
    rw [h2] at h1
    exact h1 rfl
  intro c hc
  simp only [List.mem_cons, List.not_mem_nil, or_false] at hc
  rcases hc with rfl | rfl | rfl
  · exact key _ (by decide +kernel) ⟨.configurationError, rfl⟩
  · exact key _ (by decide +kernel) ⟨.sequencingError, rfl⟩
  · exact key _ (by decide +kernel) ⟨.illegalCommand, rfl⟩

theorem test_witness_SequencingErrorExactly :
    (∃ t r, exec .spReset State.reset = .next t ∧ t.responses = State.reset.responses ++ [r] ∧
      sequencingCase .spReset State.reset) ∧
    ∃ t r, exec (.spInit .shake128) State.reset = .next t ∧ t.responses = State.reset.responses ++ [r] ∧
      ¬ sequencingCase (.spInit .shake128) State.reset :=
  ⟨⟨_, _, rfl, rfl, rfl⟩, ⟨_, _, rfl, rfl, id⟩⟩

theorem test_witness_ConfigurationErrorExactly :
    (∃ t r, exec (.b2bInit 0 [] [] []) State.reset = .next t ∧ t.responses = State.reset.responses ++ [r] ∧
      configurationCase (.b2bInit 0 [] [] [])) ∧
    ∃ t r, exec (.b2sInit 32 [] [] []) State.reset = .next t ∧ t.responses = State.reset.responses ++ [r] ∧
      ¬ configurationCase (.b2sInit 32 [] [] []) :=
  ⟨⟨_, _, rfl, rfl, by simp [configurationCase, legalConstruction]⟩,
    ⟨_, _, rfl, rfl, by simp [configurationCase, legalConstruction]⟩⟩

theorem test_witness_InvariantViolationNeverGiven :
    ∃ t r, step (State.reset.deliver ⟨0x0, []⟩) = .next t ∧
      t.responses = (State.reset.deliver ⟨0x0, []⟩).responses ++ [r] := ⟨_, _, rfl, rfl⟩

theorem test_witness_StreamPhaseTable :
    configurationCase (.b2bInit 65 [] [] []) ∧ ¬ configurationCase (.b2bInit 64 [] [] []) ∧
      b2PhaseAfter (.b2cUpdate []) (ctrlB .finalized []).b2.phaseCode = none ∧
      b2PhaseAfter (.b2cUpdate []) (ctrlB .initialized []).b2.phaseCode = some 2 := by
  refine ⟨by simp [configurationCase, legalConstruction], by simp [configurationCase, legalConstruction], ?_, ?_⟩ <;>
    decide +kernel

theorem test_witness_ContextsAreIndependent :
    isSponge .spDigest = true ∧ isStream .b2cFinal = true ∧ isPure (.kfPermute (Vector.replicate 25 0)) = true ∧
      Instr.rdreg .id = .rdreg .id := ⟨rfl, rfl, rfl, rfl⟩

/-- A core with both blocks configured, three bytes in the sponge, a keyed controller, and one more command. -/
def both : State :=
  { commands := [⟨0x00000133, [0x61]⟩]
    sp := .configured ⟨.absorbing, .sha3_256, Vector.replicate 25 0, abc, 0⟩
    b2 := .blake2b (B2Regs.construct paramsB 64 (pat 64) [] [])
    responses := [⟨.ok, []⟩, ⟨.ok, []⟩, ⟨.ok, []⟩] }

theorem test_witness_NoWayBackToUnconfigured :
    (∃ t, step both = .next t) ∧ both.sp.phaseCode ≠ 0 ∧ both.b2.phaseCode ≠ 0 :=
  ⟨⟨_, rfl⟩, by decide +kernel, by decide +kernel⟩

theorem test_witness_RegisterReadsHideTheRest :
    spVisible (sponge .shake128 .squeezing [] 5).sp = spVisible (sponge .shake128 .squeezing abc 9).sp ∧
      b2Visible (ctrlB .updating abc).b2 = b2Visible (ctrlB .updating []).b2 := ⟨rfl, rfl⟩

theorem test_witness_StepKeepsTheInvariant : both.Inv ∧ ∃ t, step both = .next t := by
  refine ⟨⟨?_, ?_, ?_⟩, ⟨_, rfl⟩⟩
  · show SpRegs.Inv _
    unfold SpRegs.Inv
    decide +kernel
  · show B2Regs.Inv paramsB (B2Regs.construct paramsB 64 (pat 64) [] [])
    unfold B2Regs.Inv
    decide +kernel
  · unfold Response.Inv
    decide +kernel

theorem test_witness_SpongeFrame :
    isSponge (.spAbsorb abc) = true ∧ (∃ t, exec (.spAbsorb abc) both = .next t) ∧ (∃ r, both.sp = .configured r) ∧
      isSpInit (.spAbsorb abc) = false := ⟨rfl, ⟨_, rfl⟩, ⟨_, rfl⟩, rfl⟩

theorem test_witness_StreamFrame :
    isStream .b2cFinal = true ∧ (∃ t, exec .b2cFinal both = .next t) ∧ isB2Init .b2cFinal = false ∧
      (∃ r, both.b2 = .blake2b r) ∧ (∃ r, (ctrlS .updating abc).b2 = .blake2s r) ∧ State.reset.b2 = .unconfigured :=
  ⟨rfl, ⟨_, rfl⟩, rfl, ⟨_, rfl⟩, ⟨_, rfl⟩, rfl⟩

theorem test_witness_PureFrame :
    (isPure (.kfPermute (Vector.replicate 25 0)) = true ∧
      ∃ t, exec (.kfPermute (Vector.replicate 25 0)) both = .next t) ∧
    ∃ reg t, exec (.rdreg reg) both = .next t := ⟨⟨rfl, ⟨_, rfl⟩⟩, ⟨.id, _, rfl⟩⟩

/-- A buffer one byte short of a block. -/
theorem test_witness_SpAbsorbResult :
    ∃ r, (sponge .sha3_512 .absorbing (pat 71) 0).sp = .configured r ∧ r.phase = .absorbing ∧
      r.buf.length < r.var.rate := ⟨_, rfl, rfl, by decide +kernel⟩

theorem test_witness_SpAbsorbStreams :
    ∃ r, (sponge .shake128 .absorbing [] 0).sp = .configured r ∧ r.phase = .absorbing := ⟨_, rfl, rfl⟩

theorem test_witness_SpResetResult : ∃ r, (sponge .shake128 .squeezing [] 168).sp = .configured r := ⟨_, rfl⟩

theorem test_witness_SpFinalizeResult :
    ∃ r, (sponge .shake128 .absorbing (pat 167) 0).sp = .configured r ∧ r.phase = .absorbing ∧
      r.buf.length < r.var.rate := ⟨_, rfl, rfl, by decide +kernel⟩

theorem test_witness_SpSqueezeResult :
    ∃ r, (sponge .shake256 .squeezing [] 136).sp = .configured r ∧ r.phase = .squeezing ∧
      isShake (sponge .shake256 .squeezing [] 136).sp = true ∧ r.sqOff ≤ r.var.rate :=
  ⟨_, rfl, rfl, by decide +kernel, by decide +kernel⟩

theorem test_witness_SpSqueezeContinues :
    (∃ r, (sponge .shake128 .squeezing [] 0).sp = .configured r ∧ r.phase = .squeezing) ∧
      isShake (sponge .shake128 .squeezing [] 0).sp = true ∧
      (0xFFFFFE : BitVec 24).toNat + (1 : BitVec 24).toNat < 2 ^ 24 :=
  ⟨⟨_, rfl, rfl⟩, by decide +kernel, by decide +kernel⟩

theorem test_witness_SpDigestResult :
    ∃ r, (sponge .sha3_224 .absorbing (pat 143) 0).sp = .configured r ∧ r.phase = .absorbing ∧
      r.buf.length < r.var.rate ∧ r.var.dlen = some 28 := ⟨_, rfl, rfl, by decide +kernel, rfl⟩

theorem test_witness_Sha3IsTheSpongeFunction : SpVar.sha3_512.dlen = some 64 := rfl

theorem test_witness_ShakeIsTheSpongeFunction : SpVar.shake128.xof = true ∧ SpVar.shake256.xof = true := ⟨rfl, rfl⟩

/-- The least and the greatest parameters of BLAKE2b. -/
theorem test_witness_B2bInitResult :
    legalConstruction 64 64 16 1 [] [] [] ∧ legalConstruction 64 64 16 64 (zeros 64) (zeros 16) (zeros 16) := by
  unfold legalConstruction
  decide +kernel

/-- The least and the greatest parameters of BLAKE2s. -/
theorem test_witness_B2sInitResult :
    legalConstruction 32 32 8 1 [] [] [] ∧ legalConstruction 32 32 8 32 (zeros 32) (zeros 8) (zeros 8) := by
  unfold legalConstruction
  decide +kernel

theorem test_witness_B2cResetResult :
    (∃ r, (ctrlB .finalized abc).b2 = .blake2b r ∧ r.key.length = r.klen.toNat ∧ r.salt.length = 16 ∧
      r.pers.length = 16) ∧
    ∃ r, (ctrlS .updating abc).b2 = .blake2s r ∧ r.key.length = r.klen.toNat ∧ r.salt.length = 8 ∧
      r.pers.length = 8 := ⟨⟨_, rfl, rfl, rfl, rfl⟩, ⟨_, rfl, rfl, rfl, rfl⟩⟩

theorem test_witness_B2cResetRestoresTheConstruction :
    isB2Init (.b2sInit 32 (zeros 32) [] []) = true ∧ ¬ configurationCase (.b2sInit 32 (zeros 32) [] []) ∧
      ∀ j ∈ [Instr.b2cUpdate abc, .b2cFinal, .b2cFinal, .spReset], isB2Init j = false := by
  refine ⟨rfl, ?_, by decide +kernel⟩
  unfold configurationCase legalConstruction
  decide +kernel

/-- Full buffers. -/
theorem test_witness_B2cUpdateResult :
    (∃ r, (ctrlB .initialized (pat 128)).b2 = .blake2b r ∧ r.phase ≠ .finalized ∧ r.buf.length ≤ 128) ∧
    ∃ r, (ctrlS .updating (pat 64)).b2 = .blake2s r ∧ r.phase ≠ .finalized ∧ r.buf.length ≤ 64 :=
  ⟨⟨_, rfl, by decide, by decide +kernel⟩, ⟨_, rfl, by decide, by decide +kernel⟩⟩

theorem test_witness_B2cUpdateStreams :
    [abc, [], abc] ≠ [] ∧ (ctrlB .initialized []).b2.phaseCode = 1 ∧ (ctrlS .updating []).b2.phaseCode = 2 := by
  decide +kernel

theorem test_witness_B2cFinalResult :
    (∃ r, (ctrlB .initialized []).b2 = .blake2b r ∧ r.phase ≠ .finalized) ∧
    ∃ r, (ctrlS .updating (pat 64)).b2 = .blake2s r ∧ r.phase ≠ .finalized :=
  ⟨⟨_, rfl, by decide⟩, ⟨_, rfl, by decide⟩⟩

/-- A column, and the last diagonal. -/
theorem test_witness_MixGByAssignments : [(0 : Fin 16), 4, 8, 12].Nodup ∧ [(3 : Fin 16), 4, 9, 14].Nodup := by decide

/-- Two columns. -/
theorem test_witness_DisjointMixGsCommute : ∀ i ∈ [(0 : Fin 16), 4, 8, 12], i ∉ [(1 : Fin 16), 5, 9, 13] := by decide

/-- The example of 42_blake2_compression.md R194 for w = 32. -/
theorem test_gResult_32 :
    gResult 16 12 8 7 (0 : BitVec 32) 4 8 12 0x10 0x20 = (0x00C001B4, 0x1369B1B3, 0xB418D809, 0xB400D801) := by
  decide +kernel

theorem test_witness_Blake2bIsTheHashFunction : legalConstruction 64 64 16 64 (zeros 1) [] (zeros 16) := by
  unfold legalConstruction
  decide +kernel

theorem test_witness_Blake2sIsTheHashFunction : legalConstruction 32 32 8 32 (zeros 1) (zeros 8) [] := by
  unfold legalConstruction
  decide +kernel

end Sys2Proof.Tests
end

section
/-! PROOFS. What one step does, an equation for each of its branches (00_scope.md R5), and the statement about the
decoded command. -/

namespace Sys2Proof.Machine

/-- No command left: the core waits (log entry 4). -/
theorem step_of_no_command {s : State} (hs : s.commands = []) : step s = .next s := by
  simp only [step, hs]

/-- A legal command is executed on the state in which it has been taken. -/
theorem step_of_decode_ok {s : State} {c : Command} {rest : List Command} {i : Instr} (hs : s.commands = c :: rest)
    (hd : decode c = .ok i) : step s = exec i (s.taking rest) := by
  simp only [step, hs, hd]

/-- An illegal command is answered `IllegalCommand`, whatever the reason (60_exceptions.md R275, log entry 7). -/
theorem step_of_decode_error {s : State} {c : Command} {rest : List Command} {e : Illegal}
    (hs : s.commands = c :: rest) (hd : decode c = .error e) : step s = raise .illegalCommand (s.taking rest) := by
  simp only [step, hs, hd]

/-- Settles O5: it is the branch of `step` for a command that decodes, `State.taking` being the update of the stream
alone. -/
theorem stepRunsTheDecodedCommand : Obligations.StepRunsTheDecodedCommand :=
  fun _ _ _ _ hs hd => step_of_decode_ok hs hd

end Sys2Proof.Machine
end

section
/-! PROOFS. What a command can do to each of the two contexts, said once (10_state.md R20): a sponge command runs on the
sponge context alone, a controller command on the streaming context alone, and every other command writes neither. -/

namespace Sys2Proof.Machine

open Sys2Proof.Reference

/-- What one command can do to the sponge context (41_sponge.md R155 to R160). -/
inductive SpMove : SpBlock → SpBlock → Prop
  | stay (b : SpBlock) : SpMove b b
  | init (b : SpBlock) (v : SpVar) : SpMove b (.configured (SpRegs.fresh v))
  | absorb (r : SpRegs) (msg : List Byte) : r.phase = .absorbing → SpMove (.configured r) (.configured (r.absorb msg))
  | finalize (r : SpRegs) : r.phase = .absorbing → SpMove (.configured r) (.configured r.finalize)
  | squeeze (r : SpRegs) (n : Nat) :
      r.phase = .squeezing → r.var.xof = true → SpMove (.configured r) (.configured (squeezeBytes n r).2)
  | digest (r : SpRegs) (d : Nat) :
      r.phase = .absorbing → r.var.dlen = some d →
        SpMove (.configured r) (.configured (squeezeBytes d r.finalize).2)

/-- What one command can do to the registers of a configured controller without constructing a new one
(43_blake2_streaming.md R227 to R229). -/
inductive B2RegsMove {w : Nat} (p : B2Params w) (r : B2Regs w) : B2Regs w → Prop
  | reset : B2RegsMove p r (r.initState p)
  | update (msg : List Byte) : r.phase.open = true → B2RegsMove p r (r.update p msg)
  | final : r.phase.open = true → B2RegsMove p r (r.final p)

/-- What one command can do to the streaming context (43_blake2_streaming.md R225 to R229). -/
inductive B2Move : B2Block → B2Block → Prop
  | stay (b : B2Block) : B2Move b b
  | constructB (b : B2Block) {dlen : BitVec 7} {key salt pers : List Byte} :
      validParams paramsB dlen.toNat key.length salt.length pers.length = true →
        B2Move b (.blake2b (B2Regs.construct paramsB dlen key salt pers))
  | constructS (b : B2Block) {dlen : BitVec 7} {key salt pers : List Byte} :
      validParams paramsS dlen.toNat key.length salt.length pers.length = true →
        B2Move b (.blake2s (B2Regs.construct paramsS dlen key salt pers))
  | regsB {r r' : B2Regs 64} : B2RegsMove paramsB r r' → B2Move (.blake2b r) (.blake2b r')
  | regsS {r r' : B2Regs 32} : B2RegsMove paramsS r r' → B2Move (.blake2s r) (.blake2s r')

/-- On the sponge context `b`, whatever the rest of the state, the command makes one move of the sponge and gives one
response, and nothing else happens. -/
def RunsOnSp (i : Instr) (b : SpBlock) : Prop :=
  ∃ (b' : SpBlock) (r : Response), SpMove b b' ∧
    ∀ s : State, s.sp = b → exec i s = .next { s with sp := b', responses := s.responses ++ [r] }

/-- On the streaming context `b`, whatever the rest of the state, the command makes one move of the controller and gives
one response, and nothing else happens. -/
def RunsOnB2 (i : Instr) (b : B2Block) : Prop :=
  ∃ (b' : B2Block) (r : Response), B2Move b b' ∧
    ∀ s : State, s.b2 = b → exec i s = .next { s with b2 := b', responses := s.responses ++ [r] }

/-- An error leaves the sponge as it is (60_exceptions.md R273). -/
theorem RunsOnSp.of_raise {i : Instr} {b : SpBlock} (e : Status)
    (h : ∀ s : State, s.sp = b → exec i s = raise e s) : RunsOnSp i b :=
  ⟨b, ⟨e, []⟩, .stay b, fun s hs => by subst hs; exact h s rfl⟩

/-- An `OK` writes the registers of the move. -/
theorem RunsOnSp.of_answer {i : Instr} {b : SpBlock} {r : SpRegs} (out : List Byte) (hm : SpMove b (.configured r))
    (h : ∀ s : State, s.sp = b → exec i s = answer (s.setSp r) out) : RunsOnSp i b :=
  ⟨.configured r, ⟨.ok, out⟩, hm, h⟩

/-- An error leaves the controller as it is (60_exceptions.md R273). -/
theorem RunsOnB2.of_raise {i : Instr} {b : B2Block} (e : Status)
    (h : ∀ s : State, s.b2 = b → exec i s = raise e s) : RunsOnB2 i b :=
  ⟨b, ⟨e, []⟩, .stay b, fun s hs => by subst hs; exact h s rfl⟩

/-- An `OK` writes the block of the move. -/
theorem RunsOnB2.of_answer {i : Instr} {b b' : B2Block} (out : List Byte) (hm : B2Move b b')
    (h : ∀ s : State, s.b2 = b → exec i s = answer (s.setB2 b') out) : RunsOnB2 i b :=
  ⟨b', ⟨.ok, out⟩, hm, h⟩

/-- Every sponge command runs on the sponge context alone (10_state.md R20). -/
theorem runsOnSp_of_isSponge {i : Instr} (hi : isSponge i = true) (b : SpBlock) : RunsOnSp i b := by
  cases i with
  | spInit v => exact .of_answer [] (.init b v) fun _ _ => rfl
  | spReset =>
    match b with
    | .unconfigured => exact .of_raise .sequencingError fun s hs => by simp only [exec, execSpReset, hs]
    | .configured r => exact .of_answer [] (.init _ r.var) fun s hs => by simp only [exec, execSpReset, hs]
  | spAbsorb msg =>
    match b with
    | .unconfigured => exact .of_raise .sequencingError fun s hs => by simp only [exec, execSpAbsorb, hs]
    | .configured r =>
      cases hp : r.phase with
      | absorbing => exact .of_answer [] (.absorb r msg hp) fun s hs => by simp only [exec, execSpAbsorb, hs, hp]
      | squeezing => exact .of_raise .sequencingError fun s hs => by simp only [exec, execSpAbsorb, hs, hp]
  | spFinalize =>
    match b with
    | .unconfigured => exact .of_raise .sequencingError fun s hs => by simp only [exec, execSpFinalize, hs]
    | .configured r =>
      cases hp : r.phase with
      | absorbing => exact .of_answer [] (.finalize r hp) fun s hs => by simp only [exec, execSpFinalize, hs, hp]
      | squeezing => exact .of_raise .sequencingError fun s hs => by simp only [exec, execSpFinalize, hs, hp]
  | spSqueeze n =>
    match b with
    | .unconfigured => exact .of_raise .sequencingError fun s hs => by simp only [exec, execSpSqueeze, hs]
    | .configured r =>
      cases hp : r.phase with
      | absorbing => exact .of_raise .sequencingError fun s hs => by simp only [exec, execSpSqueeze, hs, hp]
      | squeezing =>
        cases hx : r.var.xof with
        | false => exact .of_raise .sequencingError fun s hs => by simp only [exec, execSpSqueeze, hs, hp, hx]
        | true =>
          exact .of_answer (squeezeBytes n.toNat r).1 (.squeeze r n.toNat hp hx) fun s hs => by
            simp only [exec, execSpSqueeze, hs, hp, hx]
  | spDigest =>
    match b with
    | .unconfigured => exact .of_raise .sequencingError fun s hs => by simp only [exec, execSpDigest, hs]
    | .configured r =>
      cases hp : r.phase with
      | squeezing => exact .of_raise .sequencingError fun s hs => by simp only [exec, execSpDigest, hs, hp]
      | absorbing =>
        cases hd : r.var.dlen with
        | none => exact .of_raise .sequencingError fun s hs => by simp only [exec, execSpDigest, hs, hp, hd]
        | some d =>
          exact .of_answer (squeezeBytes d r.finalize).1 (.digest r d hp hd) fun s hs => by
            simp only [exec, execSpDigest, hs, hp, hd]
  | _ => cases hi

/-- Every controller command runs on the streaming context alone (10_state.md R20). -/
theorem runsOnB2_of_isStream {i : Instr} (hi : isStream i = true) (b : B2Block) : RunsOnB2 i b := by
  cases i with
  | b2bInit dlen key salt pers =>
    by_cases hv : validParams paramsB dlen.toNat key.length salt.length pers.length = true
    · exact .of_answer [] (.constructB b hv) fun _ _ => if_pos hv
    · exact .of_raise .configurationError fun _ _ => if_neg hv
  | b2sInit dlen key salt pers =>
    by_cases hv : validParams paramsS dlen.toNat key.length salt.length pers.length = true
    · exact .of_answer [] (.constructS b hv) fun _ _ => if_pos hv
    · exact .of_raise .configurationError fun _ _ => if_neg hv
  | b2cReset =>
    match b with
    | .unconfigured => exact .of_raise .sequencingError fun s hs => by simp only [exec, execB2cReset, hs]
    | .blake2b r => exact .of_answer [] (.regsB .reset) fun s hs => by simp only [exec, execB2cReset, hs]
    | .blake2s r => exact .of_answer [] (.regsS .reset) fun s hs => by simp only [exec, execB2cReset, hs]
  | b2cUpdate msg =>
    match b with
    | .unconfigured => exact .of_raise .sequencingError fun s hs => by simp only [exec, execB2cUpdate, hs]
    | .blake2b r =>
      by_cases ho : r.phase.open = true
      · exact .of_answer [] (.regsB (.update msg ho)) fun s hs => by simp only [exec, execB2cUpdate, hs, if_pos ho]
      · exact .of_raise .sequencingError fun s hs => by simp only [exec, execB2cUpdate, hs, if_neg ho]
    | .blake2s r =>
      by_cases ho : r.phase.open = true
      · exact .of_answer [] (.regsS (.update msg ho)) fun s hs => by simp only [exec, execB2cUpdate, hs, if_pos ho]
      · exact .of_raise .sequencingError fun s hs => by simp only [exec, execB2cUpdate, hs, if_neg ho]
  | b2cFinal =>
    match b with
    | .unconfigured => exact .of_raise .sequencingError fun s hs => by simp only [exec, execB2cFinal, hs]
    | .blake2b r =>
      by_cases ho : r.phase.open = true
      · exact .of_answer (r.final paramsB).digest (.regsB (.final ho)) fun s hs => by
          simp only [exec, execB2cFinal, hs, if_pos ho]
      · exact .of_raise .sequencingError fun s hs => by simp only [exec, execB2cFinal, hs, if_neg ho]
    | .blake2s r =>
      by_cases ho : r.phase.open = true
      · exact .of_answer (r.final paramsS).digest (.regsS (.final ho)) fun s hs => by
          simp only [exec, execB2cFinal, hs, if_pos ho]
      · exact .of_raise .sequencingError fun s hs => by simp only [exec, execB2cFinal, hs, if_neg ho]
  | _ => cases hi

/-- A pure command gives the same response in every state and writes nothing (10_state.md R20). -/
theorem exec_of_isPure {i : Instr} (hi : isPure i = true) :
    ∃ r : Response, ∀ s : State, exec i s = .next { s with responses := s.responses ++ [r] } := by
  cases i with
  | kfPermute a => exact ⟨_, fun _ => rfl⟩
  | b2bCompress last h m t0 t1 => exact ⟨_, fun _ => rfl⟩
  | b2sCompress last h m t0 t1 => exact ⟨_, fun _ => rfl⟩
  | _ => cases hi

/-- `RDREG` answers the register's four bytes and writes nothing (44_system.md R262). -/
theorem exec_rdreg (reg : RdReg) (s : State) :
    exec (.rdreg reg) s = .next { s with responses := s.responses ++ [⟨.ok, wordBytes (readReg reg s)⟩] } := rfl

/-- The four kinds of commands (10_state.md R20). -/
theorem instr_kind (i : Instr) :
    isSponge i = true ∨ isStream i = true ∨ isPure i = true ∨ ∃ reg, i = .rdreg reg := by
  cases i <;> simp [isSponge, isStream, isPure]

/-- Settles O15: the two functions are the moves and responses of `runsOnSp_of_isSponge` and `runsOnB2_of_isStream`. -/
theorem contextsAreIndependent : Obligations.ContextsAreIndependent := by
  refine fun i => ⟨fun hi => ?_, fun hi => ?_, exec_of_isPure, ?_⟩
  · choose next resp _ hexec using runsOnSp_of_isSponge hi
    exact ⟨fun b => (next b, resp b), fun s => hexec s.sp s rfl⟩
  · choose next resp _ hexec using runsOnB2_of_isStream hi
    exact ⟨fun b => (next b, resp b), fun s => hexec s.b2 s rfl⟩
  · rintro reg rfl
    exact ⟨fun sp b2 => ⟨.ok, wordBytes (readReg reg ⟨[], sp, b2, []⟩)⟩, fun s => by cases reg <;> rfl⟩

end Sys2Proof.Machine
end

section
/-! PROOFS. What `RDREG` lets the host see (10_state.md R38). -/

namespace Sys2Proof.Machine

open Sys2Proof.Reference

/-- The sponge's registers show its phase and variant alone. -/
theorem spRegs_of_spVisible {b b' : SpBlock} (h : spVisible b = spVisible b') :
    spStatusValue b = spStatusValue b' ∧ spRateValue b = spRateValue b' ∧ spDlenValue b = spDlenValue b' := by
  match b, b' with
  | .unconfigured, .unconfigured => exact ⟨rfl, rfl, rfl⟩
  | .configured ⟨ph, v, _, _, _⟩, .configured ⟨ph', v', _, _, _⟩ =>
    obtain ⟨rfl, rfl⟩ : ph = ph' ∧ v = v' := by simpa [spVisible] using h
    exact ⟨rfl, rfl, rfl⟩

/-- The controller's registers show its variant, its phase and the two lengths alone. -/
theorem b2Regs_of_b2Visible {b b' : B2Block} (h : b2Visible b = b2Visible b') :
    b2StatusValue b = b2StatusValue b' ∧ b2DlenValue b = b2DlenValue b' ∧ b2KlenValue b = b2KlenValue b' := by
  match b, b' with
  | .unconfigured, .unconfigured => exact ⟨rfl, rfl, rfl⟩
  | .blake2b ⟨ph, d, k, _, _, _, _, _, _⟩, .blake2b ⟨ph', d', k', _, _, _, _, _, _⟩ =>
    obtain ⟨rfl, rfl, rfl⟩ : ph = ph' ∧ d = d' ∧ k = k' := by simpa [b2Visible] using h
    exact ⟨rfl, rfl, rfl⟩
  | .blake2s ⟨ph, d, k, _, _, _, _, _, _⟩, .blake2s ⟨ph', d', k', _, _, _, _, _, _⟩ =>
    obtain ⟨rfl, rfl, rfl⟩ : ph = ph' ∧ d = d' ∧ k = k' := by simpa [b2Visible] using h
    exact ⟨rfl, rfl, rfl⟩

/-- States that look alike to the host hold the same value in every readable register. -/
theorem readReg_of_visible (reg : RdReg) {s s' : State} (hsp : spVisible s.sp = spVisible s'.sp)
    (hb2 : b2Visible s.b2 = b2Visible s'.b2) : readReg reg s = readReg reg s' := by
  obtain ⟨hstatus, hrate, hdlen⟩ := spRegs_of_spVisible hsp
  obtain ⟨bstatus, bdlen, bklen⟩ := b2Regs_of_b2Visible hb2
  cases reg <;> simp only [readReg, hstatus, hrate, hdlen, bstatus, bdlen, bklen]

/-- Settles O17: the response is the value that both states show. -/
theorem registerReadsHideTheRest : Obligations.RegisterReadsHideTheRest := fun reg s s' hsp hb2 =>
  ⟨⟨.ok, wordBytes (readReg reg s)⟩, exec_rdreg reg s, by rw [exec_rdreg, readReg_of_visible reg hsp hb2]⟩

end Sys2Proof.Machine
end

section
/-! PROOFS. Every move of the sponge keeps its invariants (10_state.md R28). -/

namespace Sys2Proof.Machine

/-- A fresh sponge meets the invariants (41_sponge.md R155). -/
theorem fresh_inv (v : SpVar) : (SpRegs.fresh v).Inv := ⟨rate_pos v, nofun, fun _ => rfl⟩

/-- Absorbing keeps the phase, the offset 0 and a buffer shorter than a block (41_sponge.md R157). -/
theorem absorb_inv {r : SpRegs} (h : r.Inv) (hp : r.phase = .absorbing) (msg : List Byte) : (r.absorb msg).Inv := by
  obtain ⟨hbuf, -, hoff⟩ := h
  obtain ⟨hvar, hphase, hsq⟩ := absorb_frame r msg
  exact ⟨hvar ▸ absorb_buf_lt r msg hbuf, fun hs => (nomatch hp.symm.trans (hphase.symm.trans hs)),
    fun _ => hsq.trans (hoff hp)⟩

/-- Finalizing needs no invariant: it empties the buffer and sets the offset to 0 (41_sponge.md R158). -/
theorem finalize_inv (r : SpRegs) : r.finalize.Inv := ⟨rate_pos r.var, fun _ => ⟨rfl, Nat.zero_le _⟩, nofun⟩

/-- Squeezing keeps the phase, the empty buffer and an offset within a chunk (41_sponge.md R159). -/
theorem squeezeBytes_inv {r : SpRegs} (h : r.Inv) (hp : r.phase = .squeezing) (n : Nat) : (squeezeBytes n r).2.Inv := by
  obtain ⟨hlen, hsq, -⟩ := h
  obtain ⟨hbuf, hoff⟩ := hsq hp
  obtain ⟨hvar, hphase, hkeep⟩ := squeezeBytes_frame n r
  exact ⟨by rwa [hkeep, hvar], fun _ => ⟨hkeep.trans hbuf, hvar ▸ squeezeBytes_sqOff_le n r hoff⟩,
    fun ha => nomatch hp.symm.trans (hphase.symm.trans ha)⟩

theorem SpMove.inv {b b' : SpBlock} (hm : SpMove b b') (h : b.Inv) : b'.Inv := by
  cases hm with
  | stay _ => exact h
  | init _ v => exact fresh_inv v
  | absorb r msg hp => exact absorb_inv h hp msg
  | finalize r _ => exact finalize_inv r
  | squeeze r n hp _ => exact squeezeBytes_inv h hp n
  | digest r d _ _ => exact squeezeBytes_inv (finalize_inv r) rfl d

end Sys2Proof.Machine
end

section
/-! PROOFS. Every move of the controller keeps its invariants (10_state.md R30, R35). -/

namespace Sys2Proof.Machine

variable {w : Nat}

/-- What the invariants need of a variant: the longest key leaves room in a block and fits its 7-bit length register,
and the counter wraps at a whole number of blocks. -/
structure B2Params.Fits (p : B2Params w) : Prop where
  key_lt_block : p.maxKlen < blockBytes w
  key_lt_register : p.maxKlen < 2 ^ 7
  block_dvd_wrap : blockBytes w ∣ 2 ^ (2 * w)

theorem paramsB_fits : paramsB.Fits := ⟨by decide, by decide, by decide⟩

theorem paramsS_fits : paramsS.Fits := ⟨by decide, by decide, by decide⟩

/-- The part of the invariant about the parameter registers (10_state.md R30). -/
def B2Regs.ParamsInv (p : B2Params w) (r : B2Regs w) : Prop :=
  (1 ≤ r.dlen.toNat ∧ r.dlen.toNat ≤ p.maxDlen) ∧
  (r.klen.toNat ≤ p.maxKlen ∧ r.key.length = r.klen.toNat) ∧
  r.salt.length = p.saltLen ∧ r.pers.length = p.saltLen

/-- The part of the invariant about counter and chain value before finalization (10_state.md R35). -/
def B2Regs.OpenInv (p : B2Params w) (r : B2Regs w) : Prop :=
  r.t.toNat % blockBytes w = 0 ∧ (r.buf = [] → r.klen = 0 ∧ r.t = 0 ∧ r.h = (r.initState p).h)

/-- The invariant in its three parts: parameter registers, buffer, and what holds before finalization. -/
theorem inv_iff (p : B2Params w) (r : B2Regs w) :
    r.Inv p ↔ r.ParamsInv p ∧ r.buf.length ≤ blockBytes w ∧ (r.phase.open = true → r.OpenInv p) := by
  simp only [B2Regs.Inv, B2Regs.ParamsInv, B2Regs.OpenInv, and_assoc]

/-- Without a key `InitState()` leaves an empty buffer (43_blake2_streaming.md R223). -/
theorem initState_buf_of_no_key (p : B2Params w) {r : B2Regs w} (hk : r.klen = 0) : (r.initState p).buf = [] :=
  if_pos hk

/-- With a key `InitState()` leaves one whole block in the buffer (43_blake2_streaming.md R223). -/
theorem initState_buf_length (p : B2Params w) {r : B2Regs w} (hk : r.klen ≠ 0) (hkey : r.key.length = r.klen.toNat)
    (hle : r.klen.toNat ≤ blockBytes w) : (r.initState p).buf.length = blockBytes w := by
  have hbuf : (r.initState p).buf = r.key ++ zeros (blockBytes w - r.klen.toNat) := if_neg hk
  rw [hbuf, List.length_append, zeros_length, hkey, Nat.add_sub_cancel' hle]

/-- `InitState()` on parameter registers within bounds meets the invariants (43_blake2_streaming.md R223). -/
theorem initState_inv {p : B2Params w} (hf : p.Fits) {r : B2Regs w} (h : r.ParamsInv p) : (r.initState p).Inv p := by
  have ⟨_, ⟨hmax, hkey⟩, _⟩ := h
  have hlt : r.klen.toNat < blockBytes w := hmax.trans_lt hf.key_lt_block
  by_cases hk : r.klen = 0
  · have hbuf := initState_buf_of_no_key p hk
    exact (inv_iff p _).2 ⟨h, by simp [hbuf], fun _ => ⟨Nat.zero_mod _, fun _ => ⟨hk, rfl, rfl⟩⟩⟩
  · have hbuf := initState_buf_length p hk hkey hlt.le
    refine (inv_iff p _).2 ⟨h, hbuf.le, fun _ => ⟨Nat.zero_mod _, fun hnil => ?_⟩⟩
    rw [hnil, List.length_nil] at hbuf
    omega

/-- Valid construction parameters leave parameter registers within bounds (43_blake2_streaming.md R224, R225). -/
theorem construct_inv {p : B2Params w} (hf : p.Fits) {dlen : BitVec 7} {key salt pers : List Byte}
    (hv : validParams p dlen.toNat key.length salt.length pers.length = true) :
    (B2Regs.construct p dlen key salt pers).Inv p := by
  obtain ⟨hlo, hhi, hk, hs, hp⟩ := (validParams_iff p ..).1 hv
  have hreg : (BitVec.ofNat 7 key.length).toNat = key.length :=
    BitVec.toNat_ofNat .. ▸ Nat.mod_eq_of_lt (hk.trans_lt hf.key_lt_register)
  have stored : ∀ x : List Byte, x.length = 0 ∨ x.length = p.saltLen →
      (if x = [] then zeros p.saltLen else x).length = p.saltLen := by
    intro x hx
    split <;> simp_all
  exact initState_inv hf ⟨⟨hlo, hhi⟩, ⟨hreg.trans_le hk, hreg.symm⟩, stored salt hs, stored pers hp⟩

/-- Taking in bytes moves the counter by whole blocks, and so does its wrap (43_blake2_streaming.md R228, R230). -/
theorem updateBytes_t_mod {p : B2Params w} (hf : p.Fits) (r : B2Regs w) (msg : List Byte)
    (h : r.t.toNat % blockBytes w = 0) : (msg.foldl (B2Regs.updateByte p) r).t.toNat % blockBytes w = 0 := by
  induction msg generalizing r with
  | nil => exact h
  | cons b msg ih =>
    refine ih (r.updateByte p b) ?_
    obtain ⟨hfull, heq⟩ | ⟨-, heq⟩ := updateByte_cases p r b
    · rw [heq]
      simp only [B2Regs.compressBuf, hfull, BitVec.toNat_add, BitVec.toNat_ofNat, Nat.add_mod_mod]
      rw [Nat.mod_mod_of_dvd _ hf.block_dvd_wrap, Nat.add_mod_right, h]
    · rwa [heq]

/-- Only an empty update of an empty buffer leaves an empty buffer, and it changes nothing but the phase. -/
theorem update_openInv {p : B2Params w} (hf : p.Fits) {r : B2Regs w} (h : r.OpenInv p) (msg : List Byte) :
    (r.update p msg).OpenInv p := by
  obtain ⟨hmod, hempty⟩ := h
  refine ⟨updateBytes_t_mod hf r msg hmod, fun hbuf => ?_⟩
  obtain ⟨hr, rfl⟩ : r.buf = [] ∧ msg = [] := by
    by_contra hne
    exact updateBytes_buf_ne_nil p r msg (by tauto) hbuf
  exact hempty hr

/-- `B2C.UPDATE` leaves the parameter registers, and its byte loop keeps the rest (43_blake2_streaming.md R228). -/
theorem update_inv {p : B2Params w} (hf : p.Fits) {r : B2Regs w} (h : r.Inv p) (ho : r.phase.open = true)
    (msg : List Byte) : (r.update p msg).Inv p := by
  obtain ⟨hparams, hbuf, hopen⟩ := (inv_iff p r).1 h
  obtain ⟨hd, hk, hkey, hs, hp, -⟩ := updateBytes_frame p r msg
  have hpos : 1 ≤ blockBytes w := Nat.one_le_of_lt hf.key_lt_block
  refine (inv_iff p _).2 ⟨?_, updateBytes_buf_le p r msg hpos hbuf, fun _ => update_openInv hf (hopen ho) msg⟩
  simpa only [B2Regs.ParamsInv, B2Regs.update, hd, hk, hkey, hs, hp] using hparams

/-- `B2C.FINAL` leaves parameters and buffer, and nothing more is asked after it (43_blake2_streaming.md R229). -/
theorem final_inv {p : B2Params w} {r : B2Regs w} (h : r.Inv p) : (r.final p).Inv p := by
  obtain ⟨hparams, hbuf, -⟩ := (inv_iff p r).1 h
  exact (inv_iff p _).2 ⟨hparams, hbuf, nofun⟩

theorem B2RegsMove.inv {p : B2Params w} (hf : p.Fits) {r r' : B2Regs w} (hm : B2RegsMove p r r') (h : r.Inv p) :
    r'.Inv p := by
  cases hm with
  | reset => exact initState_inv hf ((inv_iff p r).1 h).1
  | update msg ho => exact update_inv hf h ho msg
  | final _ => exact final_inv h

theorem B2Move.inv {b b' : B2Block} (hm : B2Move b b') (h : b.Inv) : b'.Inv := by
  cases hm with
  | stay _ => exact h
  | constructB _ hv => exact construct_inv paramsB_fits hv
  | constructS _ hv => exact construct_inv paramsS_fits hv
  | regsB hr => exact hr.inv paramsB_fits h
  | regsS hr => exact hr.inv paramsS_fits h

end Sys2Proof.Machine
end

section
/-! PROOFS. Every step keeps the invariants of the core (10_state.md R28, R30, R35). -/

namespace Sys2Proof.Machine

open Sys2Proof.Reference

/-- Executing any command makes a move of each context. -/
theorem exec_moves {i : Instr} {s t : State} (h : exec i s = .next t) : SpMove s.sp t.sp ∧ B2Move s.b2 t.b2 := by
  obtain hi | hi | hi | ⟨reg, rfl⟩ := instr_kind i
  · obtain ⟨b', r, hm, hexec⟩ := runsOnSp_of_isSponge hi s.sp
    cases (hexec s rfl).symm.trans h
    exact ⟨hm, .stay _⟩
  · obtain ⟨b', r, hm, hexec⟩ := runsOnB2_of_isStream hi s.b2
    cases (hexec s rfl).symm.trans h
    exact ⟨.stay _, hm⟩
  · obtain ⟨r, hexec⟩ := exec_of_isPure hi
    cases (hexec s).symm.trans h
    exact ⟨.stay _, .stay _⟩
  · cases (exec_rdreg reg s).symm.trans h
    exact ⟨.stay _, .stay _⟩

/-- The one response a command is given meets the invariant of responses (30_encoding.md R90, 60_exceptions.md R274). -/
theorem exec_response {i : Instr} {s t : State} (h : exec i s = .next t) :
    ∃ r : Response, r.Inv ∧ t.responses = s.responses ++ [r] := by
  obtain ⟨t', st, out, hexec, -, hresp, hst⟩ := exec_cases i s
  cases hexec.symm.trans h
  obtain rfl | ⟨rfl | rfl, ht⟩ := hst
  · exact ⟨⟨.ok, out⟩, ⟨nofun, fun hne => absurd rfl hne⟩, hresp⟩
  · exact ⟨⟨.configurationError, []⟩, ⟨nofun, fun _ => rfl⟩, congrArg State.responses ht⟩
  · exact ⟨⟨.sequencingError, []⟩, ⟨nofun, fun _ => rfl⟩, congrArg State.responses ht⟩

theorem responses_append_inv {rs : List Response} {r : Response} (h : ∀ x ∈ rs, x.Inv) (hr : r.Inv) :
    ∀ x ∈ rs ++ [r], x.Inv := by
  simpa [or_imp, forall_and] using ⟨h, hr⟩

/-- Executing any command keeps the invariants of the core. -/
theorem exec_inv {i : Instr} {s t : State} (hs : s.Inv) (h : exec i s = .next t) : t.Inv := by
  obtain ⟨hsp, hb2, hresp⟩ := hs
  obtain ⟨spMove, b2Move⟩ := exec_moves h
  obtain ⟨r, hr, happ⟩ := exec_response h
  exact ⟨spMove.inv hsp, b2Move.inv hb2, happ ▸ responses_append_inv hresp hr⟩

/-- Raising an error other than the one nothing raises keeps the invariants. -/
theorem respond_error_inv {s : State} {e : Status} (hs : s.Inv) (he : e ≠ .invariantViolation) :
    (s.respond e []).Inv := by
  obtain ⟨hsp, hb2, hresp⟩ := hs
  exact ⟨hsp, hb2, responses_append_inv hresp ⟨he, fun _ => rfl⟩⟩

/-- Settles O18: a step waits, executes a decoded command or refuses an illegal one, and each of these keeps the
invariants. -/
theorem stepKeepsTheInvariant : Obligations.StepKeepsTheInvariant := by
  intro s t hs h
  cases hc : s.commands with
  | nil =>
    cases (step_of_no_command hc).symm.trans h
    exact hs
  | cons c rest =>
    have htaken : (s.taking rest).Inv := hs
    cases hd : decode c with
    | ok i => exact exec_inv htaken ((step_of_decode_ok hc hd).symm.trans h)
    | error e =>
      cases (step_of_decode_error hc hd).symm.trans h
      exact respond_error_inv htaken nofun

end Sys2Proof.Machine
end

section
/-! PROOFS. The pure commands never fail: their one response is `OK` (20_memory.md R71). -/

namespace Sys2Proof.Machine

open Sys2Proof.Reference

/-- A pure command completes in every state, with the same output bytes (10_state.md R20). -/
theorem exec_ok_of_isPure {i : Instr} (hi : isPure i = true) :
    ∃ out : List Byte, ∀ s : State, exec i s = .next (answered s .ok out) := by
  cases i with
  | kfPermute a => exact ⟨bytesOfLanes (keccakF a), fun _ => rfl⟩
  | b2bCompress last h m t0 t1 => exact ⟨bytesOfWords (compressF paramsB h m t0 t1 last), fun _ => rfl⟩
  | b2sCompress last h m t0 t1 => exact ⟨bytesOfWords (compressF paramsS h m t0 t1 last), fun _ => rfl⟩
  | _ => cases hi

/-- Settles O23: a pure command and `RDREG` each end in the old state with one `OK` response. -/
theorem pureFrame : Obligations.PureFrame := by
  rintro i s t (hi | ⟨reg, rfl⟩) h
  · obtain ⟨out, hexec⟩ := exec_ok_of_isPure hi
    cases (hexec s).symm.trans h
    exact ⟨out, rfl⟩
  · cases (exec_rdreg reg s).symm.trans h
    exact ⟨wordBytes (readReg reg s), rfl⟩

end Sys2Proof.Machine
end

section
/-! PROOFS. The decoder takes a command apart into row, zero bits, payload length and operands, and the encoder puts the
same parts together (30_encoding.md R91 to R100). -/

namespace Sys2Proof

open Sys2Proof.Machine Sys2Proof.Laws

/-- A command decodes exactly when its opcode is a row's, the row's zero bits are 0, the payload has the length the word
fixes, and the operands have a meaning (30_encoding.md R101). -/
theorem decode_eq_ok_iff {c : Command} {i : Instr} :
    decode c = .ok i ↔ ∃ op, Opcode.ofByte? (fieldOp c.word) = some op ∧ reservedZero op c.word = true ∧
      c.payload.length = payloadLength op c.word ∧ buildInstr op c.word c.payload = .ok i := by
  unfold decode
  split
  next hnone => simp [hnone]
  next op hop => split_ifs <;> simp_all

/-! From an instruction to its command and back. -/

theorem fieldOp_encode (i : Instr) : fieldOp (encode i).word = i.opcode.code := by
  cases i <;> simp [encode, Instr.opcode]

theorem reservedZero_encode (i : Instr) : reservedZero i.opcode (encode i).word = true := by
  cases i <;> simp [encode, Instr.opcode, reservedZero]

theorem payload_length_encode {i : Instr} (hi : i.wellFormed = true) :
    (encode i).payload.length = payloadLength i.opcode (encode i).word := by
  cases i with
  | kfPermute a => exact EncodedLength.kfPermute a hi
  | spAbsorb msg => exact EncodedLength.spAbsorb msg hi
  | b2bCompress last h m t0 t1 => exact EncodedLength.b2bCompress last h m t0 t1 hi
  | b2sCompress last h m t0 t1 => exact EncodedLength.b2sCompress last h m t0 t1 hi
  | b2bInit dlen key salt pers => exact EncodedLength.b2bInit dlen key salt pers hi
  | b2sInit dlen key salt pers => exact EncodedLength.b2sInit dlen key salt pers hi
  | b2cUpdate msg => exact EncodedLength.b2cUpdate msg hi
  | _ => rfl

/-- Lengths that fit the fields of format B cut a construction payload where it was joined (30_encoding.md R96, R99). -/
theorem initParts_payload {key salt pers : List Byte}
    (h : key.length < 2 ^ 7 ∧ salt.length < 2 ^ 5 ∧ pers.length < 2 ^ 5) :
    initKey (key ++ salt ++ pers) (BitVec.ofNat 7 key.length).toNat = key ∧
      initSalt (key ++ salt ++ pers) (BitVec.ofNat 7 key.length).toNat (BitVec.ofNat 5 salt.length).toNat = salt ∧
      initPers (key ++ salt ++ pers) (BitVec.ofNat 7 key.length).toNat (BitVec.ofNat 5 salt.length).toNat
        (BitVec.ofNat 5 pers.length).toNat = pers := by
  obtain ⟨hk, hs, hp⟩ := h
  simp only [BitVec.toNat_ofNat, Nat.mod_eq_of_lt hk, Nat.mod_eq_of_lt hs, Nat.mod_eq_of_lt hp, initKey_append,
    initSalt_append, initPers_append, and_self]

/-- The operands are read back from the fields and parts they were put in. -/
theorem buildInstr_encode {i : Instr} (hi : i.wellFormed = true) :
    buildInstr i.opcode (encode i).word (encode i).payload = .ok i := by
  cases i with
  | kfPermute a => simp [buildInstr, encode, Instr.opcode, lanesOfBytes, bytesOfLanes, wordsOfBytes_bytesOfWords]
  | b2bCompress | b2sCompress =>
    simp [buildInstr, encode, Instr.opcode, compressH_payload, compressM_payload, compressT0_payload,
      compressT1_payload]
  | b2bInit | b2sInit =>
    simp only [buildInstr, encode, Instr.opcode, formatB_fields, initParts_payload (of_decide_eq_true hi)]
  | _ => simp [buildInstr, encode, Instr.opcode]

/-- Settles O1: each check of the decoder passes on the encoding, and the operands are read back. -/
theorem decodeOfEncode : Obligations.DecodeOfEncode := fun i hi =>
  decode_eq_ok_iff.2 ⟨i.opcode, by rw [fieldOp_encode, ofByte?_code], reservedZero_encode i, payload_length_encode hi,
    buildInstr_encode hi⟩

/-! From a command to its instruction and back: per format, the command is what its parts encode to. -/

section
variable {op : Opcode} {w : Word} {s : List Byte} (hop : fieldOp w = op.code)
include hop

/-- Format N without payload (30_encoding.md R92). -/
theorem command_of_formatN (hz : (w.extractLsb' 8 24 == 0) = true) (hlen : s.length = 0) :
    (⟨formatN op, []⟩ : Command) = ⟨w, s⟩ := by
  rw [formatN_of_fields op w hop (eq_of_beq hz), List.eq_nil_of_length_eq_zero hlen]

/-- Format L with a payload of `LEN` bytes (30_encoding.md R93): the length fits and is `LEN`. -/
theorem command_of_formatL (hlen : s.length = (fieldLen w).toNat) :
    decide (s.length ≤ Config.lenMax) = true ∧ (⟨formatL op (BitVec.ofNat 24 s.length), s⟩ : Command) = ⟨w, s⟩ := by
  refine ⟨decide_eq_true (hlen ▸ Nat.le_sub_one_of_lt (fieldLen w).isLt), ?_⟩
  rw [hlen, BitVec.ofNat_toNat, BitVec.setWidth_eq, formatL_of_fields op w hop]

/-- Format C with the payload h ‖ m ‖ t0 ‖ t1 of words of `n` bits (30_encoding.md R95). -/
theorem command_of_formatC {n : Nat} (hn : 8 * (n / 8) = n) (hz : (w.extractLsb' 9 23 == 0) = true)
    (hlen : s.length = 26 * (n / 8)) :
    (⟨formatC op (fieldLast w),
      compressPayload (compressH n s) (compressM n s) (compressT0 n s) (compressT1 n s)⟩ : Command) = ⟨w, s⟩ := by
  rw [formatC_of_fields op w hop (eq_of_beq hz), compressPayload_parts hn s hlen]

/-- Format B with the payload key ‖ salt ‖ personalization (30_encoding.md R96, R99), given by three parts of it whose
lengths are the fields. -/
theorem command_of_formatB {key salt pers : List Byte} (hk : key.length = (fieldKlen w).toNat)
    (hs : salt.length = (fieldSlen w).toNat) (hp : pers.length = (fieldPlen w).toNat) (hpay : key ++ salt ++ pers = s) :
    decide (key.length < 2 ^ 7 ∧ salt.length < 2 ^ 5 ∧ pers.length < 2 ^ 5) = true ∧
      (⟨formatB op (fieldDlen w) (BitVec.ofNat 7 key.length) (BitVec.ofNat 5 salt.length) (BitVec.ofNat 5 pers.length),
        key ++ salt ++ pers⟩ : Command) = ⟨w, s⟩ := by
  refine ⟨decide_eq_true ⟨hk ▸ BitVec.isLt _, hs ▸ BitVec.isLt _, hp ▸ BitVec.isLt _⟩, ?_⟩
  simp only [hk, hs, hp, hpay, BitVec.ofNat_toNat, BitVec.setWidth_eq, formatB_of_fields op w hop]

end

/-- The three parts of a construction payload have the lengths of their fields and are the whole of it (30_encoding.md
R99). -/
theorem initParts_of_length {s : List Byte} {k sl pl : Nat} (hlen : s.length = k + sl + pl) :
    (initKey s k).length = k ∧ (initSalt s k sl).length = sl ∧ (initPers s k sl pl).length = pl ∧
      initKey s k ++ initSalt s k sl ++ initPers s k sl pl = s := by
  refine ⟨?_, ?_, ?_, slice_append_slice s k sl pl hlen⟩ <;>
    simp only [initKey, initSalt, initPers, slice_length] <;> omega

/-- What a row's operands are built from is what they encode to. -/
theorem encode_of_buildInstr {op : Opcode} {w : Word} {s : List Byte} {i : Instr} (hop : fieldOp w = op.code)
    (hz : reservedZero op w = true) (hlen : s.length = payloadLength op w) (hb : buildInstr op w s = .ok i) :
    i.wellFormed = true ∧ encode i = ⟨w, s⟩ := by
  cases op with
  | kfPermute =>
    cases hb
    refine ⟨rfl, ?_⟩
    rw [encode, formatN_of_fields _ w hop (eq_of_beq hz), bytesOfLanes, lanesOfBytes,
      bytesOfWords_wordsOfBytes (by decide) s hlen]
  | spInit =>
    cases hv : SpVar.ofId? (fieldVar w) with
    | none => simp [buildInstr, hv] at hb
    | some v =>
      obtain rfl : .spInit v = i := by simpa [buildInstr, hv] using hb
      refine ⟨rfl, ?_⟩
      rw [encode, id_of_ofId? _ v hv, formatV_of_fields _ w hop (eq_of_beq hz), List.eq_nil_of_length_eq_zero hlen]
  | rdreg =>
    cases hr : RdReg.ofNumber? (fieldReg w) with
    | none => simp [buildInstr, hr] at hb
    | some r =>
      obtain rfl : .rdreg r = i := by simpa [buildInstr, hr] using hb
      refine ⟨rfl, ?_⟩
      rw [encode, number_of_ofNumber? _ r hr, formatR_of_fields _ w hop (eq_of_beq hz),
        List.eq_nil_of_length_eq_zero hlen]
  | spSqueeze =>
    cases hb
    refine ⟨rfl, ?_⟩
    rw [encode, formatL_of_fields _ w hop, List.eq_nil_of_length_eq_zero hlen]
  | spAbsorb | b2cUpdate =>
    cases hb
    exact command_of_formatL hop hlen
  | b2bCompress | b2sCompress =>
    cases hb
    exact ⟨rfl, command_of_formatC hop (by decide) hz hlen⟩
  | b2bInit | b2sInit =>
    cases hb
    obtain ⟨hk, hs, hp, hpay⟩ := initParts_of_length hlen
    exact command_of_formatB hop hk hs hp hpay
  | _ =>
    cases hb
    exact ⟨rfl, command_of_formatN hop hz hlen⟩

/-- Settles O2: the row's own opcode byte, the checks of the decoder and `encode_of_buildInstr` give the command back. -/
theorem encodeOfDecode : Obligations.EncodeOfDecode := by
  intro c i hd
  obtain ⟨op, hop, hz, hlen, hb⟩ := decode_eq_ok_iff.1 hd
  exact encode_of_buildInstr (code_of_ofByte? _ op hop).symm hz hlen hb

end Sys2Proof
end

section
/-! PROOFS. The table of illegal commands of 30_encoding.md R101, written in numbers, says what the decoder refuses. -/

namespace Sys2Proof

open Sys2Proof.Machine Sys2Proof.Reference

/-! The fields of a word as numbers. -/

theorem extractLsb'_toNat_div (w : Word) (a n : Nat) : (w.extractLsb' a n).toNat = w.toNat / 2 ^ a % 2 ^ n := by
  rw [BitVec.extractLsb'_toNat, Nat.shiftRight_eq_div_pow]

/-- A field that reaches up to bit 31 needs no remainder. -/
theorem extractLsb'_toNat_top (w : Word) {a n : Nat} (h : a + n = 32) :
    (w.extractLsb' a n).toNat = w.toNat / 2 ^ a := by
  have hlt : w.toNat < 2 ^ a * 2 ^ n := by rw [← Nat.pow_add, h]; exact w.isLt
  rw [extractLsb'_toNat_div, Nat.mod_eq_of_lt (Nat.div_lt_of_lt_mul hlt)]

theorem fieldOp_toNat (w : Word) : (fieldOp w).toNat = w.toNat % 256 := by
  rw [fieldOp, extractLsb'_toNat_div, Nat.pow_zero, Nat.div_one, show 2 ^ 8 = 256 from rfl]

theorem fieldLen_toNat (w : Word) : (fieldLen w).toNat = w.toNat / 2 ^ 8 := extractLsb'_toNat_top w rfl

theorem fieldVar_toNat (w : Word) : (fieldVar w).toNat = w.toNat / 2 ^ 8 % 2 ^ 4 := extractLsb'_toNat_div w 8 4

theorem fieldKlen_toNat (w : Word) : (fieldKlen w).toNat = w.toNat / 2 ^ 15 % 2 ^ 7 := extractLsb'_toNat_div w 15 7

theorem fieldSlen_toNat (w : Word) : (fieldSlen w).toNat = w.toNat / 2 ^ 22 % 2 ^ 5 := extractLsb'_toNat_div w 22 5

theorem fieldPlen_toNat (w : Word) : (fieldPlen w).toNat = w.toNat / 2 ^ 27 := extractLsb'_toNat_top w rfl

theorem fieldReg_toNat (w : Word) : (fieldReg w).toNat = w.toNat / 2 ^ 8 % 2 ^ 8 := extractLsb'_toNat_div w 8 8

/-! The cases (a) to (e), each in the decoder's terms. -/

theorem mem_opcodes_iff (b : Byte) : b.toNat ∈ opcodes ↔ (Opcode.ofByte? b).isSome = true := by
  revert b
  decide +kernel

/-- (a): `OP` is one of the fifteen opcodes exactly when it selects a row (30_encoding.md R98). -/
theorem opcode_mem_opcodes_iff (w : Word) :
    w.toNat % 256 ∈ opcodes ↔ ∃ op, Opcode.ofByte? (fieldOp w) = some op := by
  rw [← fieldOp_toNat, mem_opcodes_iff, Option.isSome_iff_exists]

/-- The bits of a word from `n` up are 0 under the mask exactly when the field they form is 0. -/
theorem and_highMask_eq_zero_iff (w : Word) (n : Nat) :
    w &&& BitVec.allOnes 32 <<< n = 0 ↔ w.extractLsb' n (32 - n) = 0 := by
  constructor <;> intro h <;> ext i hi
  · have hbit := congrArg (fun v => v.getLsbD (n + i)) h
    simpa [-BitVec.reduceAllOnes, hi, show n + i < 32 by omega] using hbit
  · by_cases hn : i < n
    · simp [hn]
    · have hbit := congrArg (fun v => v.getLsbD (i - n)) h
      simpa [-BitVec.reduceAllOnes, show i - n < 32 - n by omega, show n + (i - n) = i by omega, hn, hi] using hbit

/-- (b): the mask of a row holds the bits its format requires to be 0 (30_encoding.md R92 to R97). -/
theorem reservedZero_iff (op : Opcode) (w : Word) :
    reservedZero op w = true ↔ w &&& reservedMask op.code.toNat = 0 := by
  cases op with
  | spInit => exact beq_iff_eq.trans (and_highMask_eq_zero_iff w 12).symm
  | b2bCompress | b2sCompress => exact beq_iff_eq.trans (and_highMask_eq_zero_iff w 9).symm
  | rdreg => exact beq_iff_eq.trans (and_highMask_eq_zero_iff w 16).symm
  | spAbsorb | spSqueeze | b2bInit | b2sInit | b2cUpdate => exact iff_of_true rfl BitVec.and_zero
  | _ => exact beq_iff_eq.trans (and_highMask_eq_zero_iff w 8).symm

theorem ofId?_isSome_iff (v : BitVec 4) : (SpVar.ofId? v).isSome = true ↔ ¬ 6 ≤ v.toNat := by
  revert v
  decide

theorem ofNumber?_isSome_iff (n : Byte) :
    (RdReg.ofNumber? n).isSome = true ↔ ¬ n.toNat ∉ [0x00, 0x10, 0x11, 0x12, 0x20, 0x21, 0x22] := by
  revert n
  decide +kernel

/-- (c) and (d): only a reserved variant and an unassigned register leave a row without operands (30_encoding.md R94,
10_state.md R38). -/
theorem buildInstr_ok_iff (op : Opcode) (w : Word) (s : List Byte) :
    (∃ i, buildInstr op w s = .ok i) ↔ ¬ (op.code.toNat = 0x10 ∧ 6 ≤ w.toNat / 2 ^ 8 % 2 ^ 4) ∧
      ¬ (op.code.toNat = 0x40 ∧ w.toNat / 2 ^ 8 % 2 ^ 8 ∉ [0x00, 0x10, 0x11, 0x12, 0x20, 0x21, 0x22]) := by
  rw [← fieldVar_toNat, ← fieldReg_toNat]
  cases op with
  | spInit =>
    have hvar := ofId?_isSome_iff (fieldVar w)
    cases hv : SpVar.ofId? (fieldVar w) <;> simp_all [buildInstr, Opcode.code]
  | rdreg =>
    have hreg := ofNumber?_isSome_iff (fieldReg w)
    cases hr : RdReg.ofNumber? (fieldReg w) <;> simp_all [buildInstr, Opcode.code]
  | _ => simp [buildInstr, Opcode.code]

/-- (e): the length a row fixes (30_encoding.md R99). -/
theorem payloadLength_eq_requiredLength {op : Opcode} {w : Word} (hop : w.toNat % 256 = op.code.toNat) :
    payloadLength op w = requiredLength w.toNat := by
  cases op <;>
    simp [requiredLength, hop, Opcode.code, payloadLength, fieldLen_toNat, fieldKlen_toNat, fieldSlen_toNat,
      fieldPlen_toNat]

/-- The decoder refuses exactly the illegal commands (30_encoding.md R101). -/
theorem illegal_iff (c : Command) : illegal c ↔ ¬ ∃ i, decode c = .ok i := by
  have hop := opcode_mem_opcodes_iff c.word
  simp only [decode_eq_ok_iff]
  cases h : Opcode.ofByte? (fieldOp c.word) with
  | none => exact iff_of_true (.inl (by simp [hop, h])) (by simp)
  | some op =>
    have hcode : c.word.toNat % 256 = op.code.toNat := by rw [code_of_ofByte? _ op h, fieldOp_toNat]
    have hmem : op.code.toNat ∈ opcodes := hcode ▸ hop.2 ⟨op, h⟩
    have hbuild := buildInstr_ok_iff op c.word c.payload
    have hres := reservedZero_iff op c.word
    have hlen := payloadLength_eq_requiredLength hcode
    simp only [illegal, hcode, hmem, Option.some.injEq, exists_eq_left', exists_and_left, hres, hlen, hbuild]
    grind

/-- No command that decodes is answered `IllegalCommand` (60_exceptions.md R275). -/
theorem exec_ne_illegalCommand (i : Instr) (s : State) : exec i s ≠ .next (answered s .illegalCommand []) := by
  intro h
  obtain ⟨t, st, out, hexec, -, hresp, hst⟩ := exec_cases i s
  cases hexec.symm.trans h
  obtain ⟨rfl, rfl⟩ : .illegalCommand = st ∧ [] = out := by simpa [answered] using hresp
  simp at hst

/-- Settles O3: the step answers `IllegalCommand` where the decoder refuses, and executes the command elsewhere. -/
theorem illegalCommandsExactly : Obligations.IllegalCommandsExactly := by
  intro s c rest hs
  rw [illegal_iff]
  cases hd : decode c with
  | error e => exact iff_of_true (by simp) (step_of_decode_error hs hd)
  | ok i =>
    refine iff_of_false (by simp) fun h => exec_ne_illegalCommand i (s.taking rest) ?_
    exact (step_of_decode_ok hs hd).symm.trans h

end Sys2Proof
end

section
/-! PROOFS. The one response of every command (30_encoding.md R90), and words read from the formats. -/

namespace Sys2Proof.Machine

/-- Settles O7: a refused command is answered with the one error, and any other with the one response of its meaning. -/
theorem everyCommandGetsOneResponse : Obligations.EveryCommandGetsOneResponse := by
  intro s c rest hs
  cases hd : decode c with
  | error e => exact ⟨_, ⟨.illegalCommand, []⟩, step_of_decode_error hs hd, rfl, rfl, fun _ => rfl⟩
  | ok i =>
    obtain ⟨t, st, out, hexec, hcmd, -⟩ := exec_cases i (s.taking rest)
    obtain ⟨r, ⟨-, hout⟩, hresp⟩ := exec_response hexec
    exact ⟨t, r, (step_of_decode_ok hs hd).trans hexec, hcmd, hresp, hout⟩

/-- Settles O4: each word is closed, and the decoder evaluates on it. -/
theorem referenceWordsDecode : Obligations.ReferenceWordsDecode :=
  ⟨rfl, rfl, rfl, rfl, rfl, rfl, rfl, rfl⟩

end Sys2Proof.Machine
end

section
/-! PROOFS. Rotation of a lane to the left (00_scope.md R9): the sum the spec writes, and how it composes. -/

namespace Sys2Proof.Machine

open Sys2Proof.Reference

/-- Bit i comes from bit i − r modulo 64, here without subtraction. -/
theorem lane_getElem_rotateLeft (v : Lane) (r i : Nat) (hi : i < 64) :
    (v.rotateLeft r)[i] = v[(i + 63 * r) % 64] := by
  rw [BitVec.getElem_rotateLeft]
  split <;> congr 1 <;> omega

theorem lane_rotateLeft_rotateLeft (v : Lane) (r s : Nat) :
    (v.rotateLeft r).rotateLeft s = v.rotateLeft (r + s) := by
  ext i hi
  simp only [lane_getElem_rotateLeft]
  congr 1
  omega

theorem lane_rotateLeft_mul_64 (v : Lane) (k : Nat) : v.rotateLeft (64 * k) = v := by
  ext i hi
  simp only [lane_getElem_rotateLeft]
  congr 1
  omega

/-- The machine's rotation joins two parts without common bits, so that it is the sum 00_scope.md R9 writes. -/
theorem rotl64_eq_rotateLeft (v : Lane) {n : Nat} (hn : n < 64) : rotl64 v n = v.rotateLeft n := by
  have hsplit : 2 ^ n * 2 ^ (64 - n) = 2 ^ 64 := by rw [← Nat.pow_add, Nat.add_sub_cancel' hn.le]
  have hlow : v.toNat / 2 ^ (64 - n) < 2 ^ n := Nat.div_lt_of_lt_mul (by rw [Nat.mul_comm, hsplit]; exact v.isLt)
  have hhigh : v.toNat * 2 ^ n % 2 ^ 64 = 2 ^ n * (v.toNat % 2 ^ (64 - n)) := by
    rw [Nat.mul_comm, ← hsplit, Nat.mul_mod_mul_left]
  have hsum : (v.rotateLeft n).toNat = v.toNat * 2 ^ n % 2 ^ 64 + v.toNat / 2 ^ (64 - n) := by
    rw [BitVec.toNat_rotateLeft, Nat.mod_eq_of_lt hn, Nat.shiftLeft_eq, Nat.shiftRight_eq_div_pow, hhigh,
      Nat.two_pow_add_eq_or_of_lt hlow]
  apply BitVec.eq_of_toNat_eq
  rw [rotl64, BitVec.toNat_ofNat]
  split
  case isTrue h0 => rw [Nat.mod_eq_of_lt v.isLt, h0, show v.rotateLeft 0 = v from lane_rotateLeft_mul_64 v 0]
  case isFalse => rw [← Nat.mod_add_mod, ← hsum, Nat.mod_eq_of_lt (BitVec.isLt _)]

theorem lane_rotateLeft_xor (u v : Lane) (r : Nat) :
    (u ^^^ v).rotateLeft r = u.rotateLeft r ^^^ v.rotateLeft r := by
  ext i hi
  simp only [lane_getElem_rotateLeft, BitVec.getElem_xor]

theorem lane_rotateLeft_injective (r : Nat) : Function.Injective fun v : Lane => v.rotateLeft r :=
  Function.LeftInverse.injective (g := fun v : Lane => v.rotateLeft (63 * r)) fun v => by
    simp only [lane_rotateLeft_rotateLeft, show r + 63 * r = 64 * r by omega, lane_rotateLeft_mul_64]

end Sys2Proof.Machine
end

section
/-! PROOFS. The step mappings by coordinates, and the tables they read (40_keccak_f1600.md R122 to R126). -/

namespace Sys2Proof.Machine

open Sys2Proof.Reference

/-- States that agree at every coordinate are equal (40_keccak_f1600.md R120). -/
theorem lanes_ext {a b : Lanes} (h : ∀ x y : Fin 5, a[x.val + 5 * y.val] = b[x.val + 5 * y.val]) : a = b := by
  refine Vector.ext fun i hi => ?_
  have hxy := h ⟨i % 5, by omega⟩ ⟨i / 5, by omega⟩
  simpa only [Nat.mod_add_div] using hxy

theorem theta_coord (a : Lanes) (x y : Fin 5) :
    (theta a)[x.val + 5 * y.val] = a[x.val + 5 * y.val] ^^^
      ((thetaC a)[(x.val + 4) % 5] ^^^ ((thetaC a)[(x.val + 1) % 5]).rotateLeft 1) := by
  have hcolumn : (x.val + 5 * y.val) % 5 = x.val := by omega
  simp only [theta_getElem, hcolumn, thetaD_getElem]

/-- Settles O24: the correction is the two parities spelled out, its rotation the one of 00_scope.md R9. -/
theorem thetaByCoordinates : Obligations.ThetaByCoordinates := by
  intro a x y
  rw [theta_coord, rotl64_eq_rotateLeft _ (by decide), thetaC_getElem, thetaC_getElem, ← BitVec.xor_assoc]

/-- The table `RHO` holds the offsets of the walk, which stays within the 25 lanes. -/
theorem rhoOffsets_rhoWalk : ∀ t : Fin 24, ∃ h : (rhoWalk t.val).1 + 5 * (rhoWalk t.val).2 < 25,
    rhoOffsets[(rhoWalk t.val).1 + 5 * (rhoWalk t.val).2] = (t.val + 1) * (t.val + 2) / 2 % 64 := by
  decide

/-- Settles O25: the table gives lane 0 the offset 0 and the lane after t moves that of the walk. -/
theorem rhoByTheWalk : Obligations.RhoByTheWalk := by
  refine fun a => ⟨?_, fun t => ?_⟩
  · exact (rho_getElem a 0 (by decide)).trans (lane_rotateLeft_mul_64 a[0] 0)
  · obtain ⟨hlt, hoffset⟩ := rhoOffsets_rhoWalk t
    exact ⟨hlt, by rw [rho_getElem, hoffset, rotl64_eq_rotateLeft _ (Nat.mod_lt _ (by decide))]⟩

/-- The table `PI_SRC` has lane (x, y) at (y, 2x + 3y). -/
theorem piSource_coord : ∀ x y : Fin 5,
    (piSource[y.val + 5 * ((2 * x.val + 3 * y.val) % 5)]).val = x.val + 5 * y.val := by
  decide

/-- Settles O26: π takes each lane from where its table says. -/
theorem piMovesLanes : Obligations.PiMovesLanes := by
  intro a x y
  simp only [pi_getElem, piSource_coord]

theorem chi_getElem (a : Lanes) (i : Nat) (h : i < 25) :
    (chi a)[i] = a[i] ^^^ (~~~a[(i + 1) % 5 + 5 * (i / 5)] &&& a[(i + 2) % 5 + 5 * (i / 5)]) := by
  simp [chi]

/-- Settles O27: k lanes on from (x, y) in its row is (x + k mod 5, y). -/
theorem chiByCoordinates : Obligations.ChiByCoordinates := by
  intro a x y
  have hnext (k : Nat) :
      (x.val + 5 * y.val + k) % 5 + 5 * ((x.val + 5 * y.val) / 5) = (x.val + k) % 5 + 5 * y.val := by
    omega
  simp only [chi_getElem, hnext]

/-- Settles O28: 24 closed equations, which the kernel evaluates. -/
theorem roundConstantsAreTheShiftRegisters : Obligations.RoundConstantsAreTheShiftRegisters := by
  unfold Obligations.RoundConstantsAreTheShiftRegisters
  decide +kernel

end Sys2Proof.Machine
end

section
/-! PROOFS. The serialization of words byte by byte (00_scope.md R10), and the answer of `KF.PERMUTE`
(40_keccak_f1600.md R130). -/

namespace Sys2Proof.Machine

open Sys2Proof.Reference

/-- Byte k of a number written out is the number shifted down by 8k bits. -/
theorem getElem_natBytes (n v k : Nat) (hk : k < (natBytes n v).length) :
    (natBytes n v)[k] = BitVec.ofNat 8 (v / 2 ^ (8 * k)) := by
  induction n generalizing v k with
  | zero => exact absurd hk (Nat.not_lt_zero k)
  | succ n ih =>
    cases k with
    | zero => simp [natBytes]
    | succ k =>
      have hpow : 256 * 2 ^ (8 * k) = 2 ^ (8 * (k + 1)) := by rw [Nat.mul_add_one, Nat.add_comm, Nat.pow_add]
      simp only [natBytes, List.getElem_cons_succ, ih, Nat.div_div_eq_div_mul, hpow]

/-- Byte k of the words written out is byte k mod (w/8) of word k div (w/8). -/
theorem getElem_bytesOfWords {w n : Nat} (ws : Vector (BitVec w) n) (k : Nat) (hk : k < n * (w / 8)) :
    (bytesOfWords ws)[k]'(by simpa using hk) =
      BitVec.ofNat 8 ((ws[k / (w / 8)]'(Nat.div_lt_of_lt_mul (Nat.mul_comm n _ ▸ hk))).toNat /
        2 ^ (8 * (k % (w / 8)))) := by
  have hword : k / (w / 8) < n := Nat.div_lt_of_lt_mul (Nat.mul_comm n _ ▸ hk)
  have hbyte : k % (w / 8) < w / 8 := Nat.mod_lt _ (Nat.pos_of_mul_pos_left (Nat.zero_lt_of_lt hk))
  have hslice : slice (bytesOfWords ws) (w / 8 * (k / (w / 8))) (w / 8) = wordBytes ws[k / (w / 8)] :=
    slice_flatMap_wordBytes ws.toList (k / (w / 8)) (by simpa using hword)
  have hget := List.getElem_of_eq hslice (i := k % (w / 8)) (by rwa [hslice, wordBytes_length])
  simpa only [slice, List.getElem_take, List.getElem_drop, Nat.div_add_mod, wordBytes, getElem_natBytes] using hget

/-- The lanes are written out byte by byte (10_state.md R29). -/
theorem bytesOfLanes_eq_serialBytes (a : Lanes) : bytesOfLanes a = (List.range 200).map (serialByte a) := by
  refine List.ext_getElem (by simp [bytesOfLanes]) fun k hk _ => ?_
  have hk : k < 25 * 8 := by simpa [bytesOfLanes] using hk
  have hlane : k / 8 < a.toList.length := by simp; omega
  rw [List.getElem_map, List.getElem_range, serialByte, List.getD_eq_getElem _ _ hlane]
  exact getElem_bytesOfWords a k hk

/-- Settles O30: the output is the serialized lanes, and reading it gives them back. -/
theorem kfPermuteResult : Obligations.KfPermuteResult := fun _ a =>
  ⟨bytesOfLanes (keccakF a), rfl, bytesOfLanes_eq_serialBytes _, wordsOfBytes_bytesOfWords rfl (keccakF a)⟩

end Sys2Proof.Machine
end

section
/-! PROOFS. θ is injective (40_keccak_f1600.md R129): on the column parities it acts as the polynomial
1 + X^4 + X·Z, where X moves to the next column and Z rotates by 1. Exclusive-or has characteristic 2, so that squaring
doubles the exponents, and with X^5 = Z^64 = 1 the 64th power is 1 + X + X^4, whose inverse is 1 + X^2 + X^3. -/

namespace Sys2Proof.Machine

/-- Five lanes, each with the lane s columns on and the lane t columns on rotated left by r: the polynomial
1 + X^s + X^t·Z^r. -/
def xorShifts (s t : Fin 5) (r : Nat) (f : Fin 5 → Lane) : Fin 5 → Lane :=
  fun x => f x ^^^ f (x + s) ^^^ (f (x + t)).rotateLeft r

theorem lane_xor_left_comm (u v w : Lane) : u ^^^ (v ^^^ w) = v ^^^ (u ^^^ w) := by
  rw [← BitVec.xor_assoc, BitVec.xor_comm u, BitVec.xor_assoc]

/-- Squaring: the mixed terms cancel. -/
theorem xorShifts_xorShifts (s t : Fin 5) (r : Nat) (f : Fin 5 → Lane) :
    xorShifts s t r (xorShifts s t r f) = xorShifts (s + s) (t + t) (r + r) f := by
  funext x
  simp only [xorShifts, lane_rotateLeft_xor, lane_rotateLeft_rotateLeft, ← add_assoc, add_right_comm x t s]
  simp only [BitVec.xor_assoc, BitVec.xor_comm, lane_xor_left_comm, xor_cancel_left]

theorem xorShifts_injective_of_double {s t : Fin 5} {r : Nat}
    (h : Function.Injective (xorShifts (s + s) (t + t) (r + r))) : Function.Injective (xorShifts s t r) :=
  .of_comp (f := xorShifts s t r) <| by simpa only [Function.comp_def, xorShifts_xorShifts] using h

/-- (1 + X^2 + X^3)(1 + X + X^4) = 1. -/
theorem xorShifts_1_4_64_injective : Function.Injective (xorShifts 1 4 64) := by
  refine Function.LeftInverse.injective (g := xorShifts 2 3 64) fun f => funext fun x => ?_
  simp only [xorShifts, lane_rotateLeft_mul_64 _ 1, add_assoc, Fin.reduceAdd]
  simp only [BitVec.xor_assoc, BitVec.xor_comm, lane_xor_left_comm, xor_cancel_left, BitVec.xor_self,
    BitVec.xor_zero]

/-- Six squarings lead to the 64th power. -/
theorem xorShifts_4_1_1_injective : Function.Injective (xorShifts 4 1 1) := by
  iterate 6 apply xorShifts_injective_of_double
  exact xorShifts_1_4_64_injective

/-- The five column parities as a function of the column (40_keccak_f1600.md R122). -/
def columnParity (a : Lanes) : Fin 5 → Lane := fun x => (thetaC a)[x.val]

/-- θ adds the same correction to the five lanes of a column, so that it adds it to their parity. -/
theorem thetaC_theta (a : Lanes) (x : Nat) (hx : x < 5) :
    (thetaC (theta a))[x] = (thetaC a)[x] ^^^ (thetaD (thetaC a))[x] := by
  simp only [thetaC_getElem (theta a), thetaC_getElem a x, theta_getElem, Nat.add_mod _ _ 5, Nat.mod_eq_of_lt hx,
    Nat.reduceMod, Nat.add_zero]
  generalize (thetaD (thetaC a))[x] = d
  simp only [BitVec.xor_assoc, BitVec.xor_comm, lane_xor_left_comm, xor_cancel_left]

theorem columnParity_theta (a : Lanes) : columnParity (theta a) = xorShifts 4 1 1 (columnParity a) := by
  funext x
  simp only [columnParity, xorShifts, thetaC_theta, thetaD_getElem, Fin.val_add]
  exact (BitVec.xor_assoc ..).symm

/-- The result gives the parities, hence the corrections, hence the lanes. -/
theorem theta_injective : Function.Injective theta := by
  intro a b h
  have hparity : columnParity a = columnParity b :=
    xorShifts_4_1_1_injective (by rw [← columnParity_theta, ← columnParity_theta, h])
  have hC : thetaC a = thetaC b := Vector.ext fun x hx => congrFun hparity ⟨x, hx⟩
  refine Vector.ext fun i hi => ?_
  have hlane : (theta a)[i] = (theta b)[i] := by rw [h]
  rwa [theta_getElem, theta_getElem, hC, BitVec.xor_left_inj] at hlane

end Sys2Proof.Machine
end

section
/-! PROOFS. The other step mappings are injective, and `KeccakF` is a bijection (40_keccak_f1600.md R129). -/

namespace Sys2Proof.Machine

theorem rho_injective : Function.Injective rho := by
  intro a b h
  refine Vector.ext fun i hi => lane_rotateLeft_injective rhoOffsets[i] ?_
  have hlane : (rho a)[i] = (rho b)[i] := by rw [h]
  rwa [rho_getElem, rho_getElem] at hlane

/-- Every lane (x, y) is found again at (y, 2x + 3y). -/
theorem pi_injective : Function.Injective pi := by
  intro a b h
  refine lanes_ext fun x y => ?_
  rw [← piMovesLanes a x y, ← piMovesLanes b x y, h]

/-- χ on one bit position of a row. -/
def chiRow (f : Fin 5 → Bool) : Fin 5 → Bool := fun x => f x ^^ (!f (x + 1) && f (x + 2))

theorem chiRow_injective : Function.Injective chiRow := by
  unfold Function.Injective chiRow
  decide

/-- Bit k of the five lanes of row y. -/
def rowBits (a : Lanes) (y : Fin 5) (k : Fin 64) : Fin 5 → Bool := fun x => a[x.val + 5 * y.val][k.val]

theorem rowBits_chi (a : Lanes) (y : Fin 5) (k : Fin 64) : rowBits (chi a) y k = chiRow (rowBits a y k) := by
  funext x
  simp only [rowBits, chiRow, chiByCoordinates a x y, BitVec.getElem_xor, BitVec.getElem_and, BitVec.getElem_not,
    Fin.val_add, Fin.val_one, Fin.val_two]

theorem chi_injective : Function.Injective chi := by
  intro a b h
  have hrow (y : Fin 5) (k : Fin 64) : rowBits a y k = rowBits b y k :=
    chiRow_injective (by rw [← rowBits_chi, ← rowBits_chi, h])
  exact lanes_ext fun x y => BitVec.eq_of_getElem_eq fun k hk => congrFun (hrow y ⟨k, hk⟩) x

/-- ι undoes itself. -/
theorem iota_injective (c : Lane) : Function.Injective (iota c) :=
  Function.LeftInverse.injective (g := iota c) fun a => by simp [iota]

theorem keccakRound_injective (c : Lane) : Function.Injective (keccakRound c) :=
  (iota_injective c).comp <| chi_injective.comp <| pi_injective.comp <| rho_injective.comp theta_injective

theorem keccakRounds_injective (cs : List Lane) :
    Function.Injective fun a : Lanes => cs.foldl (fun a c => keccakRound c a) a := by
  induction cs with
  | nil => exact fun _ _ h => h
  | cons c cs ih => exact ih.comp (keccakRound_injective c)

theorem finite_lanes : Finite Lanes :=
  Finite.of_injective (fun (a : Lanes) (i : Fin 25) => a[i]) fun _ _ h =>
    Vector.ext fun i hi => congrFun h ⟨i, hi⟩

/-- Settles O29: every round is injective, and the states are finitely many. -/
theorem keccakFIsABijection : Obligations.KeccakFIsABijection :=
  have := finite_lanes
  (keccakRounds_injective roundConstants.toList).bijective_of_finite

end Sys2Proof.Machine
end

section
/-! PROOFS. What each sponge command answers in a phase and on a variant that accept it, and that it is answered
`SequencingError` in any other (41_sponge.md R155 to R160); the table of phases and the frame follow. -/

namespace Sys2Proof.Machine

open Sys2Proof.Reference

variable {s : State} {r : SpRegs}

theorem exec_spInit (v : SpVar) (s : State) :
    exec (.spInit v) s = .next (answered (withSp s (SpRegs.fresh v)) .ok []) := rfl

theorem exec_spReset (hs : s.sp = .configured r) :
    exec .spReset s = .next (answered (withSp s (SpRegs.fresh r.var)) .ok []) := by
  simp only [exec, execSpReset, hs, answer_setSp]

theorem exec_spAbsorb (msg : List Byte) (hs : s.sp = .configured r) (hp : r.phase = .absorbing) :
    exec (.spAbsorb msg) s = .next (answered (withSp s (r.absorb msg)) .ok []) := by
  simp only [exec, execSpAbsorb, hs, hp, answer_setSp]

theorem exec_spFinalize (hs : s.sp = .configured r) (hp : r.phase = .absorbing) :
    exec .spFinalize s = .next (answered (withSp s r.finalize) .ok []) := by
  simp only [exec, execSpFinalize, hs, hp, answer_setSp]

theorem exec_spSqueeze (n : BitVec 24) (hs : s.sp = .configured r) (hp : r.phase = .squeezing)
    (hx : r.var.xof = true) :
    exec (.spSqueeze n) s =
      .next (answered (withSp s (squeezeBytes n.toNat r).2) .ok (squeezeBytes n.toNat r).1) := by
  simp only [exec, execSpSqueeze, hs, hp, hx, answer_setSp]

theorem exec_spDigest {d : Nat} (hs : s.sp = .configured r) (hp : r.phase = .absorbing) (hd : r.var.dlen = some d) :
    exec .spDigest s =
      .next (answered (withSp s (squeezeBytes d r.finalize).2) .ok (squeezeBytes d r.finalize).1) := by
  simp only [exec, execSpDigest, hs, hp, hd, answer_setSp]

/-- A SHA3 variant has a fixed output length (00_scope.md R8). -/
theorem dlen_of_not_xof {v : SpVar} (h : v.xof = false) : ∃ d, v.dlen = some d :=
  Option.isSome_iff_exists.mp (by rw [dlen_isSome, h]; rfl)

theorem dlen_of_xof {v : SpVar} (h : v.xof = true) : v.dlen = none :=
  Option.not_isSome_iff_eq_none.mp (by rw [dlen_isSome, h]; exact nofun)

/-! Out of phase, or on a variant without the command. -/

theorem exec_spReset_refused (h : s.sp.phaseCode = 0) :
    exec .spReset s = .next (answered s .sequencingError []) := by
  cases hs : s.sp with
  | unconfigured => simp only [exec, execSpReset, hs, raise_answered]
  | configured r => exact absurd (hs ▸ h) (sp_phaseCode_ne_zero r)

theorem exec_spAbsorb_refused (msg : List Byte) (h : s.sp.phaseCode ≠ 1) :
    exec (.spAbsorb msg) s = .next (answered s .sequencingError []) := by
  cases hs : s.sp with
  | unconfigured => simp only [exec, execSpAbsorb, hs, raise_answered]
  | configured r =>
    cases hp : r.phase with
    | absorbing => exact absurd ((sp_phaseCode_one r).mpr hp) (hs ▸ h)
    | squeezing => simp only [exec, execSpAbsorb, hs, hp, raise_answered]

theorem exec_spFinalize_refused (h : s.sp.phaseCode ≠ 1) :
    exec .spFinalize s = .next (answered s .sequencingError []) := by
  cases hs : s.sp with
  | unconfigured => simp only [exec, execSpFinalize, hs, raise_answered]
  | configured r =>
    cases hp : r.phase with
    | absorbing => exact absurd ((sp_phaseCode_one r).mpr hp) (hs ▸ h)
    | squeezing => simp only [exec, execSpFinalize, hs, hp, raise_answered]

theorem exec_spSqueeze_refused (n : BitVec 24) (h : ¬ (s.sp.phaseCode = 2 ∧ isShake s.sp = true)) :
    exec (.spSqueeze n) s = .next (answered s .sequencingError []) := by
  cases hs : s.sp with
  | unconfigured => simp only [exec, execSpSqueeze, hs, raise_answered]
  | configured r =>
    cases hp : r.phase with
    | absorbing => simp only [exec, execSpSqueeze, hs, hp, raise_answered]
    | squeezing =>
      have hx : r.var.xof = false := by simpa [hs, hp, isShake_configured] using h
      simp only [exec, execSpSqueeze, hs, hp, hx, raise_answered]

theorem exec_spDigest_refused (h : ¬ (s.sp.phaseCode = 1 ∧ isShake s.sp = false)) :
    exec .spDigest s = .next (answered s .sequencingError []) := by
  cases hs : s.sp with
  | unconfigured => simp only [exec, execSpDigest, hs, raise_answered]
  | configured r =>
    cases hp : r.phase with
    | squeezing => simp only [exec, execSpDigest, hs, hp, raise_answered]
    | absorbing =>
      have hx : r.var.xof = true := by simpa [hs, hp, isShake_configured] using h
      simp only [exec, execSpDigest, hs, hp, dlen_of_xof hx, raise_answered]

/-- Settles O31: the registers of the statement are those of `SpRegs.fresh`. -/
theorem spInitResult : Obligations.SpInitResult := exec_spInit

/-- Settles O32: both commands make the fresh sponge of the variant. -/
theorem spResetResult : Obligations.SpResetResult := fun s r hs =>
  ⟨(exec_spReset hs).trans (exec_spInit r.var s).symm, exec_spReset hs⟩

end Sys2Proof.Machine
end

section
/-! PROOFS. The table of sponge phases (41_sponge.md R161). -/

namespace Sys2Proof.Machine

open Sys2Proof.Reference

variable {s : State}

theorem configured_of_phaseCode_ne_zero {b : SpBlock} (h : b.phaseCode ≠ 0) : ∃ r, b = .configured r := by
  cases b with
  | unconfigured => exact absurd rfl h
  | configured r => exact ⟨r, rfl⟩

theorem absorbing_of_phaseCode {b : SpBlock} (h : b.phaseCode = 1) :
    ∃ r, b = .configured r ∧ r.phase = .absorbing := by
  obtain ⟨r, rfl⟩ := configured_of_phaseCode_ne_zero (b := b) (h ▸ nofun)
  exact ⟨r, rfl, (sp_phaseCode_one r).mp h⟩

theorem squeezing_of_phaseCode {b : SpBlock} (h : b.phaseCode = 2) :
    ∃ r, b = .configured r ∧ r.phase = .squeezing := by
  obtain ⟨r, rfl⟩ := configured_of_phaseCode_ne_zero (b := b) (h ▸ nofun)
  exact ⟨r, rfl, (sp_phaseCode_two r).mp h⟩

/-- What an entry of the table says of a command: the phase after it, or the error. -/
def MeetsPhaseEntry (i : Instr) (s : State) (entry : Option (BitVec 2)) : Prop :=
  match entry with
  | some p => ∃ t, exec i s = .next t ∧ t.sp.phaseCode = p
  | none => exec i s = .next (answered s .sequencingError [])

/-- An entry with a condition is met when it is met on both sides of the condition. -/
theorem MeetsPhaseEntry.ite {i : Instr} {c : Prop} [Decidable c] {e e' : Option (BitVec 2)}
    (hc : c → MeetsPhaseEntry i s e) (hn : ¬ c → MeetsPhaseEntry i s e') :
    MeetsPhaseEntry i s (if c then e else e') := by
  by_cases h : c
  · exact if_pos h ▸ hc h
  · exact if_neg h ▸ hn h

/-- A command that is not the sponge's leaves the sponge context (10_state.md R20). -/
theorem exec_sp_of_not_isSponge {i : Instr} (hi : isSponge i = false) (s : State) :
    ∃ t, exec i s = .next t ∧ t.sp = s.sp := by
  obtain h | h | h | ⟨reg, rfl⟩ := instr_kind i
  · exact absurd (hi.symm.trans h) nofun
  · obtain ⟨_, _, -, hexec⟩ := runsOnB2_of_isStream h s.b2
    exact ⟨_, hexec s rfl, rfl⟩
  · obtain ⟨_, hexec⟩ := exec_of_isPure h
    exact ⟨_, hexec s, rfl⟩
  · exact ⟨_, exec_rdreg reg s, rfl⟩

theorem meetsPhaseEntry_of_not_isSponge {i : Instr} (hi : isSponge i = false) (s : State) :
    MeetsPhaseEntry i s (some s.sp.phaseCode) := by
  obtain ⟨t, hexec, hsp⟩ := exec_sp_of_not_isSponge hi s
  exact ⟨t, hexec, congrArg SpBlock.phaseCode hsp⟩

/-- Settles O13: the condition of each row is the one under which the command is accepted. -/
theorem spongePhaseTable : Obligations.SpongePhaseTable := by
  intro i s
  show MeetsPhaseEntry i s (spPhaseAfter i s.sp.phaseCode (isShake s.sp))
  cases i with
  | spInit v => exact ⟨_, exec_spInit v s, rfl⟩
  | spReset =>
    refine .ite exec_spReset_refused fun h => ?_
    obtain ⟨r, hs⟩ := configured_of_phaseCode_ne_zero h
    exact ⟨_, exec_spReset hs, rfl⟩
  | spAbsorb msg =>
    refine .ite (fun h => ?_) (exec_spAbsorb_refused msg)
    obtain ⟨r, hs, hp⟩ := absorbing_of_phaseCode h
    obtain ⟨-, hphase, -⟩ := absorb_frame r msg
    exact ⟨_, exec_spAbsorb msg hs hp, (sp_phaseCode_one _).mpr (hphase.trans hp)⟩
  | spFinalize =>
    refine .ite (fun h => ?_) exec_spFinalize_refused
    obtain ⟨r, hs, hp⟩ := absorbing_of_phaseCode h
    exact ⟨_, exec_spFinalize hs hp, rfl⟩
  | spSqueeze n =>
    refine .ite (fun ⟨hcode, hshake⟩ => ?_) (exec_spSqueeze_refused n)
    obtain ⟨r, hs, hp⟩ := squeezing_of_phaseCode hcode
    obtain ⟨-, hphase, -⟩ := squeezeBytes_frame n.toNat r
    rw [hs, isShake_configured] at hshake
    exact ⟨_, exec_spSqueeze n hs hp hshake, (sp_phaseCode_two _).mpr (hphase.trans hp)⟩
  | spDigest =>
    refine .ite (fun ⟨hcode, hshake⟩ => ?_) exec_spDigest_refused
    obtain ⟨r, hs, hp⟩ := absorbing_of_phaseCode hcode
    rw [hs, isShake_configured] at hshake
    obtain ⟨d, hd⟩ := dlen_of_not_xof hshake
    obtain ⟨-, hphase, -⟩ := squeezeBytes_frame d r.finalize
    exact ⟨_, exec_spDigest hs hp hd, (sp_phaseCode_two _).mpr hphase⟩
  | _ => exact meetsPhaseEntry_of_not_isSponge rfl s

end Sys2Proof.Machine
end

section
/-! PROOFS. What a sponge command leaves unchanged (41_sponge.md R155 to R160, "State written"; 10_state.md R24). -/

namespace Sys2Proof.Machine

open Sys2Proof.Reference

/-- The registers of a configured sponge that a command leaves. -/
def SpKeeps (i : Instr) (r r' : SpRegs) : Prop :=
  (isSpInit i = false → r'.var = r.var) ∧
  (∀ msg, i = .spAbsorb msg → r'.phase = r.phase ∧ r'.sqOff = r.sqOff) ∧
  (∀ n, i = .spSqueeze n → r'.phase = r.phase ∧ r'.buf = r.buf)

theorem SpKeeps.refl (i : Instr) (r : SpRegs) : SpKeeps i r r :=
  ⟨fun _ => rfl, fun _ _ => ⟨rfl, rfl⟩, fun _ _ => ⟨rfl, rfl⟩⟩

/-- A refused command leaves every register. -/
theorem spKeeps_of_error {i : Instr} {s t : State} {r : SpRegs} (hs : s.sp = .configured r)
    (h : exec i s = .next t) (he : exec i s = .next (answered s .sequencingError [])) :
    ∃ r', t.sp = .configured r' ∧ SpKeeps i r r' := by
  cases he.symm.trans h
  exact ⟨r, hs, .refl i r⟩

/-- A sponge command leaves a configured sponge configured, with the registers that are not its to write. -/
theorem exec_spKeeps {i : Instr} {s t : State} {r : SpRegs} (hi : isSponge i = true) (hs : s.sp = .configured r)
    (h : exec i s = .next t) : ∃ r', t.sp = .configured r' ∧ SpKeeps i r r' := by
  cases i with
  | spInit v =>
    cases (exec_spInit v s).symm.trans h
    exact ⟨_, rfl, nofun, nofun, nofun⟩
  | spReset =>
    cases (exec_spReset hs).symm.trans h
    exact ⟨_, rfl, fun _ => rfl, nofun, nofun⟩
  | spAbsorb msg =>
    by_cases hp : r.phase = .absorbing
    · cases (exec_spAbsorb msg hs hp).symm.trans h
      obtain ⟨hvar, hphase, hoff⟩ := absorb_frame r msg
      exact ⟨_, rfl, fun _ => hvar, fun _ _ => ⟨hphase, hoff⟩, nofun⟩
    · exact spKeeps_of_error hs h (exec_spAbsorb_refused msg (by simpa [hs] using hp))
  | spFinalize =>
    by_cases hp : r.phase = .absorbing
    · cases (exec_spFinalize hs hp).symm.trans h
      exact ⟨_, rfl, fun _ => rfl, nofun, nofun⟩
    · exact spKeeps_of_error hs h (exec_spFinalize_refused (by simpa [hs] using hp))
  | spSqueeze n =>
    by_cases hp : r.phase = .squeezing ∧ r.var.xof = true
    · obtain ⟨hp, hx⟩ := hp
      cases (exec_spSqueeze n hs hp hx).symm.trans h
      obtain ⟨hvar, hphase, hbuf⟩ := squeezeBytes_frame n.toNat r
      exact ⟨_, rfl, fun _ => hvar, nofun, fun _ _ => ⟨hphase, hbuf⟩⟩
    · exact spKeeps_of_error hs h (exec_spSqueeze_refused n (by simpa [hs, isShake_configured] using hp))
  | spDigest =>
    by_cases hp : r.phase = .absorbing ∧ r.var.xof = false
    · obtain ⟨hp, hx⟩ := hp
      obtain ⟨d, hd⟩ := dlen_of_not_xof hx
      cases (exec_spDigest hs hp hd).symm.trans h
      obtain ⟨hvar, -, -⟩ := squeezeBytes_frame d r.finalize
      exact ⟨_, rfl, fun _ => hvar, nofun, nofun⟩
    · exact spKeeps_of_error hs h (exec_spDigest_refused (by simpa [hs, isShake_configured] using hp))
  | _ => cases hi

/-- Settles O21: a sponge command runs on the sponge context alone, and of a configured one it keeps what `exec_spKeeps`
says. -/
theorem spongeFrame : Obligations.SpongeFrame := by
  intro i s t hi h
  obtain ⟨b', resp, -, hexec⟩ := runsOnSp_of_isSponge hi s.sp
  have hkeep (r : SpRegs) (hs : s.sp = .configured r) := exec_spKeeps hi hs h
  cases (hexec s rfl).symm.trans h
  exact ⟨rfl, rfl, ⟨resp, rfl⟩, hkeep⟩

end Sys2Proof.Machine
end

section
/-! PROOFS. A block of the message word by word and byte by byte (20_memory.md R63), and the padded block as the buffer
followed by the padding (41_sponge.md R152, R153). -/

namespace Sys2Proof.Machine

open Sys2Proof.Reference

/-- The first byte of a sequence is the low byte of its word. -/
theorem leWord_cons (n : Nat) (b : Byte) (s : List Byte) : leWord (n + 8) (b :: s) = leWord n s ++ b := by
  apply BitVec.eq_of_toNat_eq
  have hb : b.toNat < 2 ^ 8 := b.isLt
  have hmod : (b.toNat + 256 * leNat s) % 2 ^ (n + 8) = 2 ^ 8 * (leNat s % 2 ^ n) + b.toNat := by
    rw [show (256 : Nat) = 2 ^ 8 from rfl, Nat.add_comm n 8, Nat.pow_add, Nat.mod_mul,
      Nat.add_mul_mod_self_left, Nat.mod_eq_of_lt hb, Nat.add_mul_div_left _ _ (Nat.two_pow_pos 8), Nat.div_eq_of_lt hb,
      Nat.zero_add, Nat.add_comm]
  simp only [leWord, leNat, BitVec.toNat_append, BitVec.toNat_ofNat]
  rw [Nat.shiftLeft_eq, Nat.mul_comm _ (2 ^ 8), ← Nat.two_pow_add_eq_or_of_lt hb, ← hmod]

theorem leWord_singleton (b : Byte) : leWord 8 [b] = b := by simp [leWord, leNat]

/-- Eight bytes as a word: the first is the lowest (00_scope.md R10). -/
theorem leWord_slice_eight (p : List Byte) (o : Nat) (h : o + 8 ≤ p.length) :
    leWord 64 (slice p o 8) = (p.getD (o + 7) 0 ++ p.getD (o + 6) 0 ++ p.getD (o + 5) 0 ++ p.getD (o + 4) 0 ++
      p.getD (o + 3) 0 ++ p.getD (o + 2) 0 ++ p.getD (o + 1) 0 ++ p.getD o 0 : BitVec 64) := by
  have hslice : slice p o 8 = (List.range 8).map fun k => p.getD (o + k) 0 := by
    refine List.ext_getElem (by simp; omega) fun k hk _ => ?_
    have hk : k < 8 := by simp at hk; omega
    simp [slice, List.getD_eq_getElem?_getD, List.getElem?_eq_getElem (show o + k < p.length by omega)]
  rw [hslice]
  show leWord 64 [_, _, _, _, _, _, _, _] = _
  simp only [leWord_cons 56, leWord_cons 48, leWord_cons 40, leWord_cons 32, leWord_cons 24, leWord_cons 16,
    leWord_cons 8, leWord_singleton, Nat.add_zero]

/-- Exclusive-oring a block in by words is doing it byte by byte (20_memory.md R63). -/
theorem xorBlock_eq_xorBytes (a : Lanes) (p : List Byte) :
    xorBlock p.length a p = xorBytes p.length a fun i => p.getD i 0 := by
  refine Vector.ext fun j hj => ?_
  by_cases h : j < p.length / 8
  · simp [xorBlock, xorBytes, h, leWord_slice_eight p (8 * j) (by omega)]
  · simp [xorBlock, xorBytes, h]

/-- What `PadBlock` puts behind the buffer when n bytes are missing: the suffix, zeros and the last bit (41_sponge.md
R153). -/
def padTail (suffix : Byte) (n : Nat) : List Byte := (suffix :: zeros (n - 1)).modify (n - 1) (· ^^^ 0x80)

/-- The padding depends on the buffer's length alone. -/
theorem padBlock_eq_append {buf : List Byte} (suffix : Byte) {rate : Nat} (h : buf.length < rate) :
    padBlock buf suffix rate = buf ++ padTail suffix (rate - buf.length) := by
  have hlast : rate - 1 = buf.length + (rate - buf.length - 1) := by omega
  rw [padBlock, padTail, hlast, Nat.add_sub_cancel_left, List.modify_eq_take_drop, List.modify_eq_take_drop,
    List.take_length_add_append, List.drop_length_add_append, List.append_assoc]

/-- The padded block byte by byte (41_sponge.md R152). -/
theorem padBlock_eq_padBytes {buf : List Byte} (suffix : Byte) {rate : Nat} (h : buf.length < rate) :
    padBlock buf suffix rate = (List.range rate).map (padByte buf suffix rate) := by
  refine List.ext_getElem (by simp [h]) fun i hi _ => ?_
  have hi : i < (buf ++ suffix :: zeros (rate - 1 - buf.length)).length := by simpa [padBlock] using hi
  have hbyte : (buf ++ suffix :: zeros (rate - 1 - buf.length))[i] =
      if i < buf.length then buf.getD i 0 else if i = buf.length then suffix else 0 := by
    obtain hlt | rfl | hgt := Nat.lt_trichotomy i buf.length
    · simp [List.getElem_append_left hlt, hlt]
    · simp
    · obtain ⟨k, rfl⟩ := Nat.exists_eq_add_of_lt hgt
      simp [Nat.add_assoc, zeros]
  simp only [padBlock, List.getElem_modify, hbyte, List.getElem_map, List.getElem_range, padByte,
    eq_comm (a := rate - 1)]
  by_cases hlast : i = rate - 1 <;> simp [hlast]

/-- Behind the block every byte reads 0. -/
theorem padByte_of_le {buf : List Byte} (suffix : Byte) {rate i : Nat} (h : buf.length < rate) (hi : rate ≤ i) :
    padByte buf suffix rate i = 0 := by
  have hbuf : ¬ i < buf.length := by omega
  have hsuffix : i ≠ buf.length := by omega
  have hlast : i ≠ rate - 1 := by omega
  simp [padByte, hbuf, hsuffix, hlast]

theorem padBlock_getD {buf : List Byte} (suffix : Byte) {rate : Nat} (h : buf.length < rate) (i : Nat) :
    (padBlock buf suffix rate).getD i 0 = padByte buf suffix rate i := by
  rw [padBlock_eq_padBytes suffix h]
  obtain hi | hi := Nat.lt_or_ge i rate
  · simp [List.getD_eq_getElem?_getD, hi]
  · simp [List.getD_eq_getElem?_getD, hi, padByte_of_le suffix h hi]

end Sys2Proof.Machine
end

section
/-! PROOFS. Absorbing byte by byte is absorbing the whole blocks of buffer and message one after another (41_sponge.md
R157), and finalizing is absorbing the padding (R158). -/

namespace Sys2Proof.Machine

open Sys2Proof.Reference

/-- The lanes after the whole blocks of a byte sequence, in order. -/
def absorbBlocks (rate : Nat) (a : Lanes) (d : List Byte) : Lanes :=
  (blocks rate (d.length / rate) d).foldl (fun a p => keccakF (xorBytes rate a fun i => p.getD i 0)) a

/-- What is behind the whole blocks of a byte sequence. -/
def behindBlocks (rate : Nat) (d : List Byte) : List Byte := d.drop (rate * (d.length / rate))

theorem behindBlocks_length (rate : Nat) (d : List Byte) : (behindBlocks rate d).length = d.length % rate := by
  rw [behindBlocks, List.length_drop, Nat.mod_eq_sub]

/-- Absorbing a whole block takes it in byte by byte. -/
theorem absorbBlock_eq (a : Lanes) (p : List Byte) :
    absorbBlock p.length a p = keccakF (xorBytes p.length a fun i => p.getD i 0) :=
  congrArg keccakF (xorBlock_eq_xorBytes a p)

theorem blocks_succ (n k : Nat) (s : List Byte) : blocks n (k + 1) s = s.take n :: blocks n k (s.drop n) := by
  simp [blocks, List.range_succ_eq_map, slice, Nat.mul_succ, Nat.add_comm]

/-- Less than a block: nothing is absorbed, and everything is left. -/
theorem absorbBlocks_of_lt {rate : Nat} {d : List Byte} (h : d.length < rate) (a : Lanes) :
    absorbBlocks rate a d = a ∧ behindBlocks rate d = d := by
  simp [absorbBlocks, behindBlocks, Nat.div_eq_of_lt h, blocks]

/-- The first block is absorbed first. -/
theorem absorbBlocks_append {p : List Byte} (hp : 0 < p.length) (a : Lanes) (d : List Byte) :
    absorbBlocks p.length a (p ++ d) = absorbBlocks p.length (absorbBlock p.length a p) d ∧
      behindBlocks p.length (p ++ d) = behindBlocks p.length d := by
  have hdiv : (p ++ d).length / p.length = d.length / p.length + 1 := by
    rw [List.length_append, Nat.add_div_left _ hp]
  constructor
  · rw [absorbBlocks, hdiv, blocks_succ, List.take_left, List.drop_left, absorbBlock_eq]
    rfl
  · rw [behindBlocks, hdiv, Nat.mul_succ, Nat.add_comm, ← List.drop_drop, List.drop_left]
    rfl

/-- `SP.ABSORB` block by block (41_sponge.md R157): by induction on the message, where a byte either joins the buffer
or completes the first block. -/
theorem absorb_eq (r : SpRegs) (msg : List Byte) (h : r.buf.length < r.var.rate) :
    r.absorb msg =
      { r with
        lanes := absorbBlocks r.var.rate r.lanes (r.buf ++ msg)
        buf := behindBlocks r.var.rate (r.buf ++ msg) } := by
  induction msg generalizing r with
  | nil =>
    obtain ⟨hlanes, hbuf⟩ := absorbBlocks_of_lt h r.lanes
    rw [List.append_nil, hlanes, hbuf, absorb_nil]
  | cons b msg ih =>
    rw [absorb_cons, List.append_cons]
    obtain ⟨hne, hb⟩ | ⟨hfull, hb⟩ := absorbByte_cases r b
    · rw [hb, ih _ (by simp; omega)]
    · have hlen : (r.buf ++ [b]).length = r.var.rate := by simpa using hfull
      obtain ⟨hlanes, hbuf⟩ := absorbBlocks_append (hlen ▸ rate_pos r.var) r.lanes msg
      rw [hlen] at hlanes hbuf
      have hrest := ih (r.absorbByte b) (hb ▸ rate_pos r.var)
      rw [hrest, hb, hlanes, hbuf]
      rfl

theorem absorb_fresh (v : SpVar) (msg : List Byte) :
    (SpRegs.fresh v).absorb msg =
      { SpRegs.fresh v with
        lanes := absorbBlocks v.rate (Vector.replicate 25 0) msg
        buf := behindBlocks v.rate msg } := absorb_eq (SpRegs.fresh v) msg (rate_pos v)

/-- Settles O33: it is `absorb_eq`, the block-by-block form of the bytewise loop. -/
theorem spAbsorbResult : Obligations.SpAbsorbResult := fun msg s r hs hp hbuf => by
  rw [exec_spAbsorb msg hs hp, absorb_eq r msg hbuf]
  rfl

/-- Finalizing absorbs the padded buffer byte by byte (41_sponge.md R158). -/
theorem finalize_eq {r : SpRegs} (h : r.buf.length < r.var.rate) :
    r.finalize = { phase := .squeezing, var := r.var, buf := [], sqOff := 0,
                   lanes := keccakF (xorBytes r.var.rate r.lanes (padByte r.buf r.var.suffix r.var.rate)) } := by
  have hlen := padBlock_length r.buf r.var.suffix r.var.rate h
  have hblock := absorbBlock_eq r.lanes (padBlock r.buf r.var.suffix r.var.rate)
  simp only [hlen, padBlock_getD r.var.suffix h] at hblock
  rw [SpRegs.finalize, hblock]

/-- Settles O35: the block that finalizing absorbs is the padded buffer, byte by byte. -/
theorem spFinalizeResult : Obligations.SpFinalizeResult := fun s r hs hp hbuf => by
  rw [exec_spFinalize hs hp, finalize_eq hbuf]

/-- Finalizing leaves the lanes that absorbing the padding as message bytes leaves: buffer and padding are one block. -/
theorem finalize_lanes {r : SpRegs} (h : r.buf.length < r.var.rate) :
    r.finalize.lanes = (r.absorb (padTail r.var.suffix (r.var.rate - r.buf.length))).lanes := by
  have hlen := padBlock_length r.buf r.var.suffix r.var.rate h
  obtain ⟨hblock, -⟩ := absorbBlocks_append (hlen ▸ rate_pos r.var) r.lanes []
  obtain ⟨hnil, -⟩ := absorbBlocks_of_lt (d := []) (rate_pos r.var)
    (absorbBlock r.var.rate r.lanes (padBlock r.buf r.var.suffix r.var.rate))
  rw [absorb_eq r _ h, ← padBlock_eq_append r.var.suffix h]
  rw [hlen, List.append_nil, hnil] at hblock
  exact hblock.symm

/-- The padded message is the message and the padding behind it (41_sponge.md R162 (d)). -/
theorem padded_eq_append (v : SpVar) (m : List Byte) :
    padded v m = m ++ padTail v.suffix (v.rate - (behindBlocks v.rate m).length) := by
  have hlt := Nat.lt_mul_div_succ m.length (rate_pos v)
  have hmissing : v.rate * (m.length / v.rate + 1) - m.length = v.rate - m.length % v.rate := by
    have hdiv := Nat.div_add_mod m.length v.rate
    rw [Nat.mul_succ]
    omega
  rw [padded, ← padBlock_eq_padBytes v.suffix hlt, padBlock_eq_append v.suffix hlt, hmissing, behindBlocks_length]

/-- The sponge function's state is the one that absorbing the padded message leaves (41_sponge.md R162 (d)). -/
theorem spongeState_eq (v : SpVar) (m : List Byte) :
    spongeState v m = ((SpRegs.fresh v).absorb (padded v m)).lanes := by
  have hlen : (padded v m).length / v.rate = m.length / v.rate + 1 := by simp [padded, rate_pos v]
  rw [absorb_fresh, spongeState, ← hlen]
  rfl

/-- `SP.INIT`, the message, finalization: the lanes are the sponge function's state (41_sponge.md R162 (d)). -/
theorem finalize_absorb_fresh_lanes (v : SpVar) (m : List Byte) :
    ((SpRegs.fresh v).absorb m).finalize.lanes = spongeState v m := by
  have hbuf := absorb_buf_lt (SpRegs.fresh v) m (rate_pos v)
  obtain ⟨hvar, -, -⟩ := absorb_frame (SpRegs.fresh v) m
  have hbehind : ((SpRegs.fresh v).absorb m).buf = behindBlocks v.rate m := by rw [absorb_fresh]
  rw [finalize_lanes (hvar ▸ hbuf), ← absorb_append, spongeState_eq, padded_eq_append, hvar, hbehind]
  rfl

end Sys2Proof.Machine
end

section
/-! PROOFS. The output stream by position (41_sponge.md R154, R159): squeezing reads it from the position of
the state and the chunk offset on, and the position after determines the state and the offset. -/

namespace Sys2Proof.Machine

open Sys2Proof.Reference

/-- Byte i of the stream in which each state gives its first `rate` bytes. -/
def streamByte (rate : Nat) (a : Lanes) (i : Nat) : Byte := serialByte (keccakF^[i / rate] a) (i % rate)

/-- The registers q permutations on, with the offset o. -/
def SpRegs.chunkAt (r : SpRegs) (q o : Nat) : SpRegs := { r with lanes := keccakF^[q] r.lanes, sqOff := o }

theorem laneByte_eq_serialByte (a : Lanes) (o : Nat) : laneByte a o = serialByte a o := by
  apply BitVec.eq_of_toNat_eq
  simp [laneByte, serialByte, Nat.shiftRight_eq_div_pow]

/-- Byte o of the q-th chunk is at position rate · q + o. -/
theorem laneByte_chunkAt (r : SpRegs) {q o : Nat} (h : o < r.var.rate) :
    laneByte (r.chunkAt q o).lanes o = streamByte r.var.rate r.lanes (r.var.rate * q + o) := by
  rw [laneByte_eq_serialByte, streamByte, Nat.mul_add_div (rate_pos r.var), Nat.div_eq_of_lt h, Nat.mul_add_mod,
    Nat.mod_eq_of_lt h]
  rfl

/-- A used-up chunk and the start of the next are one position, and `nextChunk` moves to the start. -/
theorem nextChunk_chunkAt (r : SpRegs) {q o : Nat} (h : o ≤ r.var.rate) :
    ∃ q' o', (r.chunkAt q o).nextChunk = r.chunkAt q' o' ∧ o' < r.var.rate ∧
      r.var.rate * q' + o' = r.var.rate * q + o := by
  obtain ⟨hused, hnext⟩ | ⟨hleft, hnext⟩ := nextChunk_cases (r.chunkAt q o)
  · refine ⟨q + 1, 0, ?_, rate_pos r.var, ?_⟩
    · rw [hnext, SpRegs.chunkAt, SpRegs.chunkAt, Function.iterate_succ_apply']
    · rw [show o = r.var.rate from hused, Nat.mul_succ, Nat.add_zero]
  · exact ⟨q, o, hnext, Nat.lt_of_le_of_ne h hleft, rfl⟩

/-- Squeezing n bytes gives the next n bytes of the stream and moves n positions on. -/
theorem squeezeBytes_chunkAt (n : Nat) (r : SpRegs) {q o : Nat} (h : o ≤ r.var.rate) :
    ∃ q' o', squeezeBytes n (r.chunkAt q o) =
        ((List.range' (r.var.rate * q + o) n).map (streamByte r.var.rate r.lanes), r.chunkAt q' o') ∧
      r.var.rate * q' + o' = r.var.rate * q + o + n ∧ o' ≤ r.var.rate ∧ (0 < o + n → 0 < o') := by
  induction n generalizing q o with
  | zero => exact ⟨q, o, rfl, rfl, h, id⟩
  | succ n ih =>
    obtain ⟨q1, o1, hnext, hlt, hpos⟩ := nextChunk_chunkAt r (q := q) h
    obtain ⟨q', o', hrest, hpos', hle, ho'⟩ := ih (q := q1) (o := o1 + 1) hlt
    refine ⟨q', o', ?_, by omega, hle, fun _ => ho' (by omega)⟩
    have hbyte := laneByte_chunkAt r (q := q1) hlt
    have hmove : { r.chunkAt q1 o1 with sqOff := (r.chunkAt q1 o1).sqOff + 1 } = r.chunkAt q1 (o1 + 1) := rfl
    simp only [squeezeBytes, hnext, hmove, hrest, List.range'_succ, List.map_cons, ← hpos, ← hbyte, Nat.add_assoc]
    rfl

/-- A position behind at least one byte of its chunk has one chunk number and one offset. -/
theorem chunk_of_position {rate q o i : Nat} (h : rate * q + o = i) (ho : 0 < o) (hle : o ≤ rate) :
    q = (i - 1) / rate ∧ o = (i - 1) % rate + 1 := by
  obtain ⟨k, rfl⟩ : ∃ k, o = k + 1 := ⟨o - 1, by omega⟩
  subst h
  rw [← Nat.add_assoc, Nat.add_sub_cancel, Nat.mul_add_div (by omega), Nat.div_eq_of_lt hle, Nat.mul_add_mod,
    Nat.mod_eq_of_lt hle]
  exact ⟨rfl, rfl⟩

/-- Squeezing from any registers within a chunk. -/
theorem squeezeBytes_position (n : Nat) {r : SpRegs} (h : r.sqOff ≤ r.var.rate) :
    ∃ q o, squeezeBytes n r = ((List.range' r.sqOff n).map (streamByte r.var.rate r.lanes), r.chunkAt q o) ∧
      r.var.rate * q + o = r.sqOff + n ∧ o ≤ r.var.rate ∧ (0 < r.sqOff + n → 0 < o) := by
  have hstart : r.chunkAt 0 r.sqOff = r := rfl
  simpa only [Nat.mul_zero, Nat.zero_add, hstart] using squeezeBytes_chunkAt n r (q := 0) h

/-- The bytes squeezed, for every n (41_sponge.md R154). -/
theorem squeezeBytes_bytes (n : Nat) {r : SpRegs} (h : r.sqOff ≤ r.var.rate) :
    (squeezeBytes n r).1 = (List.range n).map fun k => streamByte r.var.rate r.lanes (r.sqOff + k) := by
  obtain ⟨q, o, hsqueeze, -⟩ := squeezeBytes_position n h
  rw [hsqueeze, List.range'_eq_map_range, List.map_map]
  rfl

/-- The registers after at least one byte, in closed form (41_sponge.md R159). -/
theorem squeezeBytes_regs {n : Nat} (hn : n ≠ 0) {r : SpRegs} (h : r.sqOff ≤ r.var.rate) :
    (squeezeBytes n r).2 =
      r.chunkAt ((r.sqOff + n - 1) / r.var.rate) ((r.sqOff + n - 1) % r.var.rate + 1) := by
  obtain ⟨q, o, hsqueeze, hpos, hle, ho⟩ := squeezeBytes_position n h
  obtain ⟨rfl, rfl⟩ := chunk_of_position hpos (ho (by omega)) hle
  rw [hsqueeze]

/-- Settles O36: the bytes are `squeezeBytes_bytes`, and the registers after them `squeezeBytes_regs`. -/
theorem spSqueezeResult : Obligations.SpSqueezeResult := by
  intro n s r hs hp hshake hoff
  rw [hs, isShake_configured] at hshake
  rw [exec_spSqueeze n hs hp hshake]
  by_cases hn : n = 0
  · subst hn
    rfl
  · rw [if_neg hn, squeezeBytes_regs (mt (BitVec.eq_of_toNat_eq (y := 0)) hn) hoff, squeezeBytes_bytes n.toNat hoff]
    rfl

/-- A digest is not empty and fits into one chunk (00_scope.md R8). -/
theorem dlen_bounds {v : SpVar} {d : Nat} (hd : v.dlen = some d) : d ≠ 0 ∧ d < v.rate := by
  cases v <;> cases hd <;> decide

/-- Within the first chunk the stream is the serialized lanes. -/
theorem streamBytes_eq_take (v : SpVar) (a : Lanes) {n : Nat} (h : n ≤ v.rate) :
    (List.range n).map (streamByte v.rate a) = (bytesOfLanes a).take n := by
  obtain ⟨-, hrate, -⟩ := rate_bounds v
  rw [bytesOfLanes_eq_serialBytes, ← List.map_take, List.take_range, Nat.min_eq_left (by omega)]
  refine List.map_congr_left fun k hk => ?_
  have hk : k < v.rate := Nat.lt_of_lt_of_le (List.mem_range.mp hk) h
  rw [streamByte, Nat.div_eq_of_lt hk, Nat.mod_eq_of_lt hk, Function.iterate_zero_apply]

/-- Squeezing at most one chunk from its start gives the first bytes of the lanes (41_sponge.md R160). -/
theorem squeezeBytes_first_chunk {n : Nat} (hn : n ≠ 0) {r : SpRegs} (hoff : r.sqOff = 0) (h : n ≤ r.var.rate) :
    squeezeBytes n r = ((bytesOfLanes r.lanes).take n, { r with sqOff := n }) := by
  have hlt : n - 1 < r.var.rate := by omega
  have hle : r.sqOff ≤ r.var.rate := hoff ▸ Nat.zero_le _
  apply Prod.ext
  · simp only [squeezeBytes_bytes n hle, hoff, Nat.zero_add, ← streamBytes_eq_take r.var r.lanes h]
  · rw [squeezeBytes_regs hn hle, hoff, Nat.zero_add, Nat.div_eq_of_lt hlt, Nat.mod_eq_of_lt hlt,
      Nat.sub_add_cancel (Nat.one_le_iff_ne_zero.mpr hn)]
    rfl

/-- Settles O38: the digest is shorter than the first chunk of the finalized sponge. -/
theorem spDigestResult : Obligations.SpDigestResult := by
  intro s r d hs hp hbuf hd
  obtain ⟨hpos, hlt⟩ := dlen_bounds hd
  rw [exec_spDigest hs hp hd, squeezeBytes_first_chunk (r := r.finalize) hpos rfl (Nat.le_of_lt hlt), finalize_eq hbuf]

end Sys2Proof.Machine
end

section
/-! PROOFS. Runs of sponge commands: pieces absorbed or squeezed one after another are the whole, and a run from
`SP.INIT` on is the sponge function of the whole message (41_sponge.md R162). -/

namespace Sys2Proof.Machine

open Sys2Proof.Reference

theorem execAll_cons {i : Instr} {is : List Instr} {s t : State} (h : exec i s = .next t) :
    execAll (i :: is) s = execAll is t := by
  simp only [execAll, h]

theorem answered_responses (s : State) (st : Status) (out : List Byte) :
    (answered s st out).responses = s.responses ++ [⟨st, out⟩] := rfl

theorem withSp_responses (s : State) (r : SpRegs) : (withSp s r).responses = s.responses := rfl

/-- Absorbing pieces one after another: all are answered `OK`, and the sponge has absorbed the whole (41_sponge.md R162
(b)). -/
theorem execAll_spAbsorb (pieces : List (List Byte)) {s : State} {r : SpRegs} (hs : s.sp = .configured r)
    (hp : r.phase = .absorbing) :
    ∃ t, execAll (pieces.map .spAbsorb) s = .next t ∧ t.sp = .configured (r.absorb pieces.flatten) ∧
      t.responses = s.responses ++ List.replicate pieces.length ⟨.ok, []⟩ := by
  induction pieces generalizing s r with
  | nil => exact ⟨s, rfl, hs, (List.append_nil _).symm⟩
  | cons p ps ih =>
    obtain ⟨-, hphase, -⟩ := absorb_frame r p
    obtain ⟨t, hrun, hsp, hresp⟩ := ih (s := answered (withSp s (r.absorb p)) .ok []) rfl (hphase.trans hp)
    refine ⟨t, (execAll_cons (exec_spAbsorb p hs hp)).trans hrun, ?_, ?_⟩
    · rw [hsp, List.flatten_cons, absorb_append]
    · rw [hresp, answered_responses, withSp_responses, List.append_assoc]
      rfl

/-- Settles O34: both runs end in the sponge that has absorbed the concatenation. -/
theorem spAbsorbStreams : Obligations.SpAbsorbStreams := by
  intro pieces s r hs hp
  obtain ⟨t, hrun, hsp, hresp⟩ := execAll_spAbsorb pieces hs hp
  exact ⟨t, _, hrun, exec_spAbsorb pieces.flatten hs hp, hsp, hresp⟩

/-- Settles O37: the two squeezes are one by `squeezeBytes_add`. -/
theorem spSqueezeContinues : Obligations.SpSqueezeContinues := by
  intro n1 n2 s r hs hp hshake hlt
  rw [hs, isShake_configured] at hshake
  obtain ⟨hvar, hphase, -⟩ := squeezeBytes_frame n1.toNat r
  have hfirst := exec_spSqueeze n1 hs hp hshake
  have hsecond := exec_spSqueeze n2
    (s := answered (withSp s (squeezeBytes n1.toNat r).2) .ok (squeezeBytes n1.toNat r).1)
    rfl (hphase.trans hp) (hvar ▸ hshake)
  have hwhole := exec_spSqueeze (n1 + n2) hs hp hshake
  rw [BitVec.toNat_add, Nat.mod_eq_of_lt hlt, squeezeBytes_add] at hwhole
  exact ⟨_, _, _, _, (execAll_cons hfirst).trans (execAll_cons hsecond), hwhole, rfl, List.append_assoc _ [_] [_],
    squeezeBytes_length n1.toNat r, rfl⟩

/-- `SP.INIT` and the pieces of a message: a fresh sponge has absorbed the whole message. -/
theorem execAll_spInit_spAbsorb (v : SpVar) (pieces : List (List Byte)) (s : State) :
    ∃ t, execAll (.spInit v :: pieces.map .spAbsorb) s = .next t ∧
      t.sp = .configured ((SpRegs.fresh v).absorb pieces.flatten) ∧
      t.responses = s.responses ++ List.replicate (pieces.length + 1) ⟨.ok, []⟩ := by
  obtain ⟨t, hrun, hsp, hresp⟩ := execAll_spAbsorb pieces (s := answered (withSp s (SpRegs.fresh v)) .ok []) rfl rfl
  refine ⟨t, (execAll_cons (exec_spInit v s)).trans hrun, hsp, ?_⟩
  rw [hresp, answered_responses, withSp_responses, List.append_assoc]
  rfl

/-- Squeezing the finalized sponge of a message gives the sponge function's stream (41_sponge.md R162 (d)). -/
theorem squeezeBytes_finalize_absorb_fresh (v : SpVar) (m : List Byte) (n : Nat) :
    (squeezeBytes n ((SpRegs.fresh v).absorb m).finalize).1 = spongeOut v m n := by
  obtain ⟨hvar, -, -⟩ := absorb_frame (SpRegs.fresh v) m
  have hvar : ((SpRegs.fresh v).absorb m).finalize.var = v := hvar
  rw [squeezeBytes_bytes n (Nat.zero_le _), finalize_absorb_fresh_lanes, hvar]
  refine List.map_congr_left fun k _ => ?_
  rw [show ((SpRegs.fresh v).absorb m).finalize.sqOff = 0 from rfl, Nat.zero_add, streamByte]

/-- Settles O39: `SP.DIGEST` finalizes the sponge that has absorbed the message, and squeezes it. -/
theorem sha3IsTheSpongeFunction : Obligations.Sha3IsTheSpongeFunction := by
  intro v d pieces s hd
  obtain ⟨t, hrun, hsp, hresp⟩ := execAll_spInit_spAbsorb v pieces s
  obtain ⟨hvar, hphase, -⟩ := absorb_frame (SpRegs.fresh v) pieces.flatten
  have hdigest := exec_spDigest (d := d) hsp hphase (hvar ▸ hd)
  rw [squeezeBytes_finalize_absorb_fresh] at hdigest
  refine ⟨_, (execAll_append _ _ s t hrun).trans (execAll_cons hdigest), ?_⟩
  rw [answered_responses, withSp_responses, hresp]

/-- Squeezing again and again: the outputs, one after another, are what one squeeze of all the bytes gives (41_sponge.md
R162 (c)). -/
theorem execAll_spSqueeze (ns : List (BitVec 24)) {s : State} {r : SpRegs} (hs : s.sp = .configured r)
    (hp : r.phase = .squeezing) (hx : r.var.xof = true) :
    ∃ (t : State) (outs : List (List Byte)), execAll (ns.map .spSqueeze) s = .next t ∧
      t.responses = s.responses ++ outs.map (⟨.ok, ·⟩) ∧
      outs.map List.length = ns.map BitVec.toNat ∧
      outs.flatten = (squeezeBytes (ns.map BitVec.toNat).sum r).1 := by
  induction ns generalizing s r with
  | nil => exact ⟨s, [], rfl, (List.append_nil _).symm, rfl, rfl⟩
  | cons n ns ih =>
    obtain ⟨hvar, hphase, -⟩ := squeezeBytes_frame n.toNat r
    have hfirst := exec_spSqueeze n hs hp hx
    obtain ⟨t, outs, hrun, hresp, hlen, hbytes⟩ :=
      ih (s := answered (withSp s (squeezeBytes n.toNat r).2) .ok (squeezeBytes n.toNat r).1) rfl
        (hphase.trans hp) (hvar ▸ hx)
    refine ⟨t, (squeezeBytes n.toNat r).1 :: outs, (execAll_cons hfirst).trans hrun, ?_, ?_, ?_⟩
    · rw [hresp, answered_responses, withSp_responses, List.append_assoc]
      rfl
    · rw [List.map_cons, List.map_cons, hlen, squeezeBytes_length]
    · rw [List.flatten_cons, hbytes, List.map_cons, List.sum_cons, squeezeBytes_add]

/-- Settles O40: `SP.FINALIZE` finalizes the sponge that has absorbed the message, and the squeezes are one. -/
theorem shakeIsTheSpongeFunction : Obligations.ShakeIsTheSpongeFunction := by
  intro v pieces ns s hx
  obtain ⟨t1, hrun1, hsp1, hresp1⟩ := execAll_spInit_spAbsorb v pieces s
  obtain ⟨hvar, hphase, -⟩ := absorb_frame (SpRegs.fresh v) pieces.flatten
  have hfinalize := exec_spFinalize hsp1 hphase
  obtain ⟨t, outs, hrun, hresp, hlen, hbytes⟩ :=
    execAll_spSqueeze ns (s := answered (withSp t1 ((SpRegs.fresh v).absorb pieces.flatten).finalize) .ok []) rfl rfl
      (hvar ▸ hx)
  refine ⟨t, outs, (execAll_append _ _ s t1 hrun1).trans ((execAll_cons hfinalize).trans hrun), ?_, hlen, ?_⟩
  · rw [hresp, answered_responses, withSp_responses, hresp1, List.append_assoc s.responses, ← List.replicate_succ']
  · rw [hbytes, squeezeBytes_finalize_absorb_fresh]

end Sys2Proof.Machine
end

section
/-! PROOFS. G as eight assignments, each writing one slot from two (42_blake2_compression.md R194): what they leave in
the four slots, and that they touch no other. -/

namespace Sys2Proof.Machine

open Sys2Proof.Reference

variable {w : Nat}

/-- One assignment of G: slot i becomes g of the words in slots i and j. -/
def assign (i j : Fin 16) (g : BitVec w → BitVec w → BitVec w) (v : Vector (BitVec w) 16) : Vector (BitVec w) 16 :=
  v.set i (g v[i] v[j])

theorem assign_getElem_self (i j : Fin 16) (g : BitVec w → BitVec w → BitVec w) (v : Vector (BitVec w) 16) :
    (assign i j g v)[i] = g v[i] v[j] :=
  Vector.getElem_set_self i.isLt

theorem assign_getElem_of_ne {i k : Fin 16} (h : k ≠ i) (j : Fin 16) (g : BitVec w → BitVec w → BitVec w)
    (v : Vector (BitVec w) 16) : (assign i j g v)[k] = v[k] :=
  Vector.getElem_set_ne i.isLt k.isLt fun hik => h (Fin.ext hik.symm)

/-- The assignments of G to slots b and d: exclusive or, then a rotation. -/
def xorRotate (r : Nat) (u v : BitVec w) : BitVec w := (u ^^^ v).rotateRight r

theorem mixG_eq_assigns (p : B2Params w) (v : Vector (BitVec w) 16) (a b c d : Fin 16) (x y : BitVec w) :
    mixG p v a b c d x y =
      (assign b c (xorRotate p.r4) <| assign c d (· + ·) <|
        assign d a (xorRotate p.r3) <| assign a b (· + · + y) <|
        assign b c (xorRotate p.r2) <| assign c d (· + ·) <|
        assign d a (xorRotate p.r1) <| assign a b (· + · + x) v) := rfl

/-- The sum 00_scope.md R9 writes has two parts without common bits, so that it is the rotation to the right. -/
theorem rotr_eq_rotateRight (v : BitVec w) {n : Nat} (hn : 0 < n ∧ n < w) : rotr v n = v.rotateRight n := by
  obtain ⟨hpos, hlt⟩ := hn
  have hsplit : 2 ^ (w - n) * 2 ^ n = 2 ^ w := by rw [← Nat.pow_add, Nat.sub_add_cancel hlt.le]
  have hlow : v.toNat / 2 ^ n < 2 ^ (w - n) := Nat.div_lt_of_lt_mul (by rw [Nat.mul_comm, hsplit]; exact v.isLt)
  have hhigh : v.toNat * 2 ^ (w - n) % 2 ^ w = 2 ^ (w - n) * (v.toNat % 2 ^ n) := by
    rw [Nat.mul_comm, ← hsplit, Nat.mul_mod_mul_left]
  have hsum : (v.rotateRight n).toNat = v.toNat * 2 ^ (w - n) % 2 ^ w + v.toNat / 2 ^ n := by
    rw [BitVec.toNat_rotateRight, Nat.mod_eq_of_lt hlt, Nat.shiftLeft_eq, Nat.shiftRight_eq_div_pow, hhigh,
      Nat.two_pow_add_eq_or_of_lt hlow, Nat.or_comm]
  apply BitVec.eq_of_toNat_eq
  rw [rotr, Nat.mod_eq_of_lt (Nat.sub_lt (hpos.trans hlt) hpos), if_neg (Nat.sub_ne_zero_of_lt hlt),
    Nat.sub_sub_self hlt.le, BitVec.toNat_ofNat, ← Nat.mod_add_mod, ← hsum, Nat.mod_eq_of_lt (BitVec.isLt _)]

/-- The slots of G hold the words of the eight assignments. -/
theorem mixG_getElem_slots (p : B2Params w) (v : Vector (BitVec w) 16) {a b c d : Fin 16} (x y : BitVec w)
    (hne : [a, b, c, d].Nodup) (hr : ∀ r ∈ [p.r1, p.r2, p.r3, p.r4], 0 < r ∧ r < w) :
    ((mixG p v a b c d x y)[a], (mixG p v a b c d x y)[b], (mixG p v a b c d x y)[c], (mixG p v a b c d x y)[d]) =
      gResult p.r1 p.r2 p.r3 p.r4 v[a] v[b] v[c] v[d] x y := by
  obtain ⟨⟨hab, hac, had⟩, ⟨hbc, hbd⟩, hcd⟩ : (a ≠ b ∧ a ≠ c ∧ a ≠ d) ∧ (b ≠ c ∧ b ≠ d) ∧ c ≠ d := by
    simpa using hne
  have hrot (r : Nat) (hmem : r ∈ [p.r1, p.r2, p.r3, p.r4]) (u : BitVec w) : rotr u r = u.rotateRight r :=
    rotr_eq_rotateRight u (hr r hmem)
  simp only [List.mem_cons, true_or, or_true, hrot, gResult, mixG_eq_assigns, xorRotate, assign_getElem_self,
    assign_getElem_of_ne, ne_eq, not_false_eq_true, hab, hac, had, hbc, hbd, hcd, hab.symm, hac.symm, had.symm,
    hbc.symm, hbd.symm, hcd.symm]

/-- A function of the working vector acts on a set of slots: it writes no other, and what it writes there depends on
the words it finds there alone. -/
structure ActsOn (S : List (Fin 16)) (f : Vector (BitVec w) 16 → Vector (BitVec w) 16) : Prop where
  frame : ∀ v, ∀ i ∉ S, (f v)[i] = v[i]
  reads : ∀ u v, (∀ i ∈ S, u[i] = v[i]) → ∀ i ∈ S, (f u)[i] = (f v)[i]

namespace ActsOn

variable {S T : List (Fin 16)} {f g : Vector (BitVec w) 16 → Vector (BitVec w) 16}

theorem comp (hg : ActsOn S g) (hf : ActsOn S f) : ActsOn S (g ∘ f) where
  frame v i hi := (hg.frame (f v) i hi).trans (hf.frame v i hi)
  reads u v huv := hg.reads (f u) (f v) (hf.reads u v huv)

/-- On slots apart, neither sees what the other did. -/
theorem commute (hf : ActsOn S f) (hg : ActsOn T g) (hST : ∀ i ∈ S, i ∉ T) (v : Vector (BitVec w) 16) :
    g (f v) = f (g v) := by
  have hslot (k : Fin 16) : (g (f v))[k] = (f (g v))[k] := by
    by_cases hk : k ∈ S
    · rw [hg.frame (f v) k (hST k hk)]
      exact (hf.reads (g v) v (fun i hi => hg.frame v i (hST i hi)) k hk).symm
    · rw [hf.frame (g v) k hk]
      by_cases hkT : k ∈ T
      · exact hg.reads (f v) v (fun i hi => hf.frame v i fun hiS => hST i hiS hi) k hkT
      · rw [hg.frame (f v) k hkT, hg.frame v k hkT, hf.frame v k hk]
  exact Vector.ext fun i hi => hslot ⟨i, hi⟩

end ActsOn

/-- An assignment acts on any slots that hold the two it names. -/
theorem actsOn_assign {S : List (Fin 16)} {i j : Fin 16} (hi : i ∈ S) (hj : j ∈ S) (g : BitVec w → BitVec w → BitVec w) :
    ActsOn S (assign i j g) where
  frame v k hk := assign_getElem_of_ne (fun h => hk (by rwa [h])) j g v
  reads u v huv k hk := by
    by_cases h : k = i
    · subst h
      rw [assign_getElem_self, assign_getElem_self, huv k hi, huv j hj]
    · rw [assign_getElem_of_ne h, assign_getElem_of_ne h, huv k hk]

/-- Two halves of four assignments each: in the second y takes the place of x, R3 and R4 that of R1 and R2. -/
theorem actsOn_mixG (p : B2Params w) (a b c d : Fin 16) (x y : BitVec w) :
    ActsOn [a, b, c, d] fun v => mixG p v a b c d x y := by
  have ha : a ∈ [a, b, c, d] := by simp
  have hb : b ∈ [a, b, c, d] := by simp
  have hc : c ∈ [a, b, c, d] := by simp
  have hd : d ∈ [a, b, c, d] := by simp
  have hhalf (r r' : Nat) (z : BitVec w) :=
    ((actsOn_assign hb hc (xorRotate r')).comp (actsOn_assign hc hd (· + ·))).comp
      ((actsOn_assign hd ha (xorRotate r)).comp (actsOn_assign ha hb (· + · + z)))
  exact (hhalf p.r3 p.r4 y).comp (hhalf p.r1 p.r2 x)

/-- Settles O42: the slots are `mixG_getElem_slots` with the amounts of the variant, the others the frame of G. -/
theorem mixGByAssignments : Obligations.MixGByAssignments :=
  ⟨fun v a b c d x y hne => ⟨mixG_getElem_slots paramsB v x y hne (by decide),
      (actsOn_mixG paramsB a b c d x y).frame v⟩,
    fun v a b c d x y hne => ⟨mixG_getElem_slots paramsS v x y hne (by decide),
      (actsOn_mixG paramsS a b c d x y).frame v⟩⟩

/-- Settles O43: each G acts on its four slots. -/
theorem disjointMixGsCommute : Obligations.DisjointMixGsCommute :=
  fun _ p v a b c d a' b' c' d' x y x' y' hdisjoint =>
    (actsOn_mixG p a b c d x y).commute (actsOn_mixG p a' b' c' d' x' y') hdisjoint v

/-- Settles O41: closed words, which the kernel evaluates. -/
theorem mixGWraps : Obligations.MixGWraps := by
  unfold Obligations.MixGWraps
  decide +kernel

end Sys2Proof.Machine
end

section
/-! PROOFS. The working vector of F slot by slot, and the answers of the two compressions (42_blake2_compression.md
R195, R197 to R199). -/

namespace Sys2Proof.Machine

open Sys2Proof.Reference

variable {w : Nat} (p : B2Params w) (h : Vector (BitVec w) 8) (t0 t1 : BitVec w) (last : Bool)

/-- Eight words and eight words as the sixteen of the working vector. -/
theorem append_getElem (u v : Vector (BitVec w) 8) (i : Nat) (hi : i < 16) :
    (u ++ v : Vector (BitVec w) 16)[i] = if hlt : i < 8 then u[i] else v[i - 8] :=
  Vector.getElem_append hi

/-- Only slots 12 to 14 differ from chain value and IV. -/
theorem initVector_getElem_of_lt {i : Nat} (hi : i < 12) : (initVector p h t0 t1 last)[i] = (h ++ p.iv)[i] := by
  have h12 : 12 ≠ i := by omega
  have h13 : 13 ≠ i := by omega
  have h14 : 14 ≠ i := by omega
  cases last <;> simp [initVector, h12, h13, h14]

/-- Settles O44: the slots below 12 are chain value and IV, and the other four are read off the definition. -/
theorem workingVectorBySlots : Obligations.WorkingVectorBySlots := by
  refine fun w p h t0 t1 last => ⟨fun i => ?_, fun i => ?_, ?_, ?_, ?_, ?_⟩
  · rw [initVector_getElem_of_lt p h t0 t1 last (by omega), append_getElem, dif_pos i.isLt]
    rfl
  · rw [initVector_getElem_of_lt p h t0 t1 last (by omega), append_getElem, dif_neg (by omega)]
    rfl
  all_goals cases last <;> simp [initVector, append_getElem]

/-- F folds the two halves of the working vector into the chain value (42_blake2_compression.md R197). -/
theorem compressF_getElem (m : Vector (BitVec w) 16) (i : Fin 8) :
    (compressF p h m t0 t1 last)[i] = h[i] ^^^ (roundsF p m p.rounds (initVector p h t0 t1 last))[i.val] ^^^
      (roundsF p m p.rounds (initVector p h t0 t1 last))[i.val + 8] := by
  simp [compressF]

/-- Reading the i-th group of the words written out gives the i-th word. -/
theorem leWord_slice_bytesOfWords {n : Nat} (hw : 8 * (w / 8) = w) (ws : Vector (BitVec w) n) (i : Fin n) :
    leWord w (slice (bytesOfWords ws) (w / 8 * i.val) (w / 8)) = ws[i] := by
  have hword := congrArg (fun us : Vector (BitVec w) n => us[i]) (wordsOfBytes_bytesOfWords hw ws)
  simpa [wordsOfBytes] using hword

/-- The words F answers with, read from the bytes written out. -/
theorem leWord_slice_compressF (hw : 8 * (w / 8) = w) (m : Vector (BitVec w) 16) (i : Fin 8) :
    leWord w (slice (bytesOfWords (compressF p h m t0 t1 last)) (w / 8 * i.val) (w / 8)) =
      h[i] ^^^ (roundsF p m p.rounds (initVector p h t0 t1 last))[i.val] ^^^
        (roundsF p m p.rounds (initVector p h t0 t1 last))[i.val + 8] :=
  (leWord_slice_bytesOfWords hw _ i).trans (compressF_getElem p h t0 t1 last m i)

/-- Settles O45: BLAKE2b has 12 rounds and words of 8 bytes. -/
theorem b2bCompressResult : Obligations.B2bCompressResult := fun last h m t0 t1 _ =>
  ⟨bytesOfWords (compressF paramsB h m t0 t1 last), rfl, bytesOfWords_length _,
    leWord_slice_compressF paramsB h t0 t1 last rfl m⟩

/-- Settles O46: BLAKE2s has 10 rounds and words of 4 bytes. -/
theorem b2sCompressResult : Obligations.B2sCompressResult := fun last h m t0 t1 _ =>
  ⟨bytesOfWords (compressF paramsS h m t0 t1 last), rfl, bytesOfWords_length _,
    leWord_slice_compressF paramsS h t0 t1 last rfl m⟩

end Sys2Proof.Machine
end

section
/-! PROOFS. The two variants of the controller as one: what `B2B.INIT` and `B2S.INIT`, `B2C.RESET`, `B2C.UPDATE` and
`B2C.FINAL` answer on either of them, accepted and refused (43_blake2_streaming.md R225 to R229). -/

namespace Sys2Proof.Machine

open Sys2Proof.Reference

/-- A variant of the controller: its parameters, its block in the state and its construction command
(43_blake2_streaming.md R220, R225, R226). -/
inductive IsVariant : {w : Nat} → B2Params w → (B2Regs w → B2Block) →
    (BitVec 7 → List Byte → List Byte → List Byte → Instr) → Prop
  | blake2b : IsVariant paramsB .blake2b .b2bInit
  | blake2s : IsVariant paramsS .blake2s .b2sInit

/-- An unconfigured controller, or one of a variant (10_state.md R30, R34). -/
theorem b2Block_cases (b : B2Block) :
    b = .unconfigured ∨ ∃ (w : Nat) (p : B2Params w) (block : B2Regs w → B2Block)
      (init : BitVec 7 → List Byte → List Byte → List Byte → Instr) (r : B2Regs w),
      IsVariant p block init ∧ b = block r := by
  cases b with
  | unconfigured => exact .inl rfl
  | blake2b r => exact .inr ⟨_, _, _, _, r, .blake2b, rfl⟩
  | blake2s r => exact .inr ⟨_, _, _, _, r, .blake2s, rfl⟩

/-- A command that constructs a controller is the construction command of a variant. -/
theorem exists_isVariant_of_isB2Init {i : Instr} (hi : isB2Init i = true) :
    ∃ (w : Nat) (p : B2Params w) (block : B2Regs w → B2Block)
      (init : BitVec 7 → List Byte → List Byte → List Byte → Instr) (dlen : BitVec 7) (key salt pers : List Byte),
      IsVariant p block init ∧ i = init dlen key salt pers := by
  cases i with
  | b2bInit dlen key salt pers => exact ⟨_, _, _, _, dlen, key, salt, pers, .blake2b, rfl⟩
  | b2sInit dlen key salt pers => exact ⟨_, _, _, _, dlen, key, salt, pers, .blake2s, rfl⟩
  | _ => cases hi

namespace IsVariant

variable {w : Nat} {p : B2Params w} {block : B2Regs w → B2Block}
  {init : BitVec 7 → List Byte → List Byte → List Byte → Instr} {s : State} {r : B2Regs w}
  {dlen : BitVec 7} {key salt pers : List Byte}

theorem phaseCode (hv : IsVariant p block init) (r : B2Regs w) : (block r).phaseCode = r.phase.code := by
  cases hv <;> rfl

/-- The open phases are `INITIALIZED` and `UPDATING` (10_state.md R34). -/
theorem phaseCode_open_iff (hv : IsVariant p block init) (r : B2Regs w) :
    ((block r).phaseCode = 1 ∨ (block r).phaseCode = 2) ↔ r.phase ≠ .finalized := by
  rw [hv.phaseCode]
  cases r.phase <;> decide

/-- Validation fails exactly where 60_exceptions.md R271 says so. -/
theorem configurationCase_iff (hv : IsVariant p block init) :
    configurationCase (init dlen key salt pers) ↔
      ¬ validParams p dlen.toNat key.length salt.length pers.length = true := by
  cases hv with
  | blake2b => exact not_congr (validParams_b dlen key salt pers).symm
  | blake2s => exact not_congr (validParams_s dlen key salt pers).symm

theorem exec_init (hv : IsVariant p block init) (s : State)
    (hp : validParams p dlen.toNat key.length salt.length pers.length = true) :
    exec (init dlen key salt pers) s =
      .next ((s.setB2 (block (B2Regs.construct p dlen key salt pers))).respond .ok []) := by
  cases hv <;> exact if_pos hp

theorem exec_init_refused (hv : IsVariant p block init) (s : State)
    (hp : ¬ validParams p dlen.toNat key.length salt.length pers.length = true) :
    exec (init dlen key salt pers) s = .next (s.respond .configurationError []) := by
  cases hv <;> exact if_neg hp

theorem exec_reset (hv : IsVariant p block init) (hs : s.b2 = block r) :
    exec .b2cReset s = .next ((s.setB2 (block (r.initState p))).respond .ok []) := by
  cases hv <;> simp only [exec, execB2cReset, hs, answer_eq]

theorem exec_update (hv : IsVariant p block init) (msg : List Byte) (hs : s.b2 = block r)
    (ho : r.phase ≠ .finalized) :
    exec (.b2cUpdate msg) s = .next ((s.setB2 (block (r.update p msg))).respond .ok []) := by
  cases hv <;> simp only [exec, execB2cUpdate, hs, (open_iff r.phase).mpr ho, if_true, answer_eq]

theorem exec_final (hv : IsVariant p block init) (hs : s.b2 = block r) (ho : r.phase ≠ .finalized) :
    exec .b2cFinal s = .next ((s.setB2 (block (r.final p))).respond .ok (r.final p).digest) := by
  cases hv <;> simp only [exec, execB2cFinal, hs, (open_iff r.phase).mpr ho, if_true, answer_eq]

end IsVariant

/-- An open controller is one of a variant, before finalization (10_state.md R34). -/
theorem exists_isVariant_of_open {b : B2Block} (h : b.phaseCode = 1 ∨ b.phaseCode = 2) :
    ∃ (w : Nat) (p : B2Params w) (block : B2Regs w → B2Block)
      (init : BitVec 7 → List Byte → List Byte → List Byte → Instr) (r : B2Regs w),
      IsVariant p block init ∧ b = block r ∧ r.phase ≠ .finalized := by
  obtain rfl | ⟨w, p, block, init, r, hv, rfl⟩ := b2Block_cases b
  · exact absurd h (by decide)
  · exact ⟨w, p, block, init, r, hv, rfl, (hv.phaseCode_open_iff r).mp h⟩

/-! Out of phase. -/

variable {s : State}

theorem exec_b2cReset_refused (h : s.b2.phaseCode = 0) :
    exec .b2cReset s = .next (s.respond .sequencingError []) := by
  obtain hs | ⟨_, _, _, _, r, hv, hs⟩ := b2Block_cases s.b2
  · simp only [exec, execB2cReset, hs, raise_eq]
  · rw [hs, hv.phaseCode] at h
    exact absurd h (code_ne_zero r.phase)

/-- A controller that is not open is unconfigured or finalized (10_state.md R34). -/
theorem b2Block_closed_cases {b : B2Block} (h : ¬ (b.phaseCode = 1 ∨ b.phaseCode = 2)) :
    b = .unconfigured ∨ ∃ (w : Nat) (p : B2Params w) (block : B2Regs w → B2Block)
      (init : BitVec 7 → List Byte → List Byte → List Byte → Instr) (r : B2Regs w),
      IsVariant p block init ∧ b = block r ∧ r.phase = .finalized := by
  obtain rfl | ⟨w, p, block, init, r, hv, rfl⟩ := b2Block_cases b
  · exact .inl rfl
  · exact .inr ⟨w, p, block, init, r, hv, rfl, not_not.mp (mt (hv.phaseCode_open_iff r).mpr h)⟩

theorem exec_b2cUpdate_refused (msg : List Byte) (h : ¬ (s.b2.phaseCode = 1 ∨ s.b2.phaseCode = 2)) :
    exec (.b2cUpdate msg) s = .next (s.respond .sequencingError []) := by
  obtain hs | ⟨_, _, _, _, r, hv, hs, hp⟩ := b2Block_closed_cases h
  · simp only [exec, execB2cUpdate, hs, raise_eq]
  · cases hv <;> simp only [exec, execB2cUpdate, hs, hp, B2Phase.open, Bool.false_eq_true, if_false, raise_eq]

theorem exec_b2cFinal_refused (h : ¬ (s.b2.phaseCode = 1 ∨ s.b2.phaseCode = 2)) :
    exec .b2cFinal s = .next (s.respond .sequencingError []) := by
  obtain hs | ⟨_, _, _, _, r, hv, hs, hp⟩ := b2Block_closed_cases h
  · simp only [exec, execB2cFinal, hs, raise_eq]
  · cases hv <;> simp only [exec, execB2cFinal, hs, hp, B2Phase.open, Bool.false_eq_true, if_false, raise_eq]

end Sys2Proof.Machine
end

section
/-! PROOFS. The table of controller phases (43_blake2_streaming.md R231). -/

namespace Sys2Proof.Machine

open Sys2Proof.Reference

/-- A command that is not the controller's leaves the streaming context (10_state.md R20). -/
theorem exec_b2_of_not_isStream {i : Instr} (hi : isStream i = false) (s : State) :
    ∃ t, exec i s = .next t ∧ t.b2 = s.b2 := by
  obtain h | h | h | ⟨reg, rfl⟩ := instr_kind i
  · obtain ⟨_, _, -, hexec⟩ := runsOnSp_of_isSponge h s.sp
    exact ⟨_, hexec s rfl, rfl⟩
  · exact absurd (hi.symm.trans h) nofun
  · obtain ⟨_, hexec⟩ := exec_of_isPure h
    exact ⟨_, hexec s, rfl⟩
  · exact ⟨_, exec_rdreg reg s, rfl⟩

/-- What the table says of a command in a state: the error of a failed construction, and else the phase after it or the
error of its entry. -/
def MeetsStreamTable (i : Instr) (s : State) (entry : Option (BitVec 2)) : Prop :=
  (configurationCase i → exec i s = .next (answered s .configurationError [])) ∧
  (¬ configurationCase i →
    match entry with
    | some p => ∃ t, exec i s = .next t ∧ t.b2.phaseCode = p
    | none => exec i s = .next (answered s .sequencingError []))

/-- An entry with a condition is met when it is met on both sides of the condition. -/
theorem MeetsStreamTable.ite {i : Instr} {s : State} {c : Prop} [Decidable c] {e e' : Option (BitVec 2)}
    (hc : c → MeetsStreamTable i s e) (hn : ¬ c → MeetsStreamTable i s e') :
    MeetsStreamTable i s (if c then e else e') := by
  split
  next h => exact hc h
  next h => exact hn h

theorem meetsStreamTable_of_next {i : Instr} {s t : State} {code : BitVec 2} (hc : ¬ configurationCase i)
    (h : exec i s = .next t) (ht : t.b2.phaseCode = code) : MeetsStreamTable i s (some code) :=
  ⟨fun hi => absurd hi hc, fun _ => ⟨t, h, ht⟩⟩

theorem meetsStreamTable_of_refused {i : Instr} {s : State} (hc : ¬ configurationCase i)
    (h : exec i s = .next (s.respond .sequencingError [])) : MeetsStreamTable i s none :=
  ⟨fun hi => absurd hi hc, fun _ => h⟩

theorem meetsStreamTable_of_not_isStream {i : Instr} (hi : isStream i = false) (hc : ¬ configurationCase i)
    (s : State) : MeetsStreamTable i s (some s.b2.phaseCode) := by
  obtain ⟨t, hexec, hb2⟩ := exec_b2_of_not_isStream hi s
  exact meetsStreamTable_of_next hc hexec (congrArg B2Block.phaseCode hb2)

/-- A construction ends in phase 1 from every phase, or fails in validation. -/
theorem IsVariant.meetsStreamTable {w : Nat} {p : B2Params w} {block : B2Regs w → B2Block}
    {init : BitVec 7 → List Byte → List Byte → List Byte → Instr} (hv : IsVariant p block init) (dlen : BitVec 7)
    (key salt pers : List Byte) (s : State) : MeetsStreamTable (init dlen key salt pers) s (some 1) :=
  ⟨fun hc => hv.exec_init_refused s (hv.configurationCase_iff.mp hc),
    fun hc => ⟨_, hv.exec_init s (not_not.mp (mt hv.configurationCase_iff.mpr hc)), hv.phaseCode _⟩⟩

/-- Settles O14: the condition of each row is the one under which the command is accepted. -/
theorem streamPhaseTable : Obligations.StreamPhaseTable := by
  intro i s
  show MeetsStreamTable i s (b2PhaseAfter i s.b2.phaseCode)
  cases i with
  | b2bInit dlen key salt pers => exact IsVariant.blake2b.meetsStreamTable dlen key salt pers s
  | b2sInit dlen key salt pers => exact IsVariant.blake2s.meetsStreamTable dlen key salt pers s
  | b2cReset =>
    refine .ite (fun h => meetsStreamTable_of_refused id (exec_b2cReset_refused h)) fun h => ?_
    obtain hs | ⟨_, _, _, _, _, hv, hs⟩ := b2Block_cases s.b2
    · exact absurd (hs ▸ rfl) h
    · exact meetsStreamTable_of_next id (hv.exec_reset hs) (hv.phaseCode _)
  | b2cUpdate msg =>
    refine .ite (fun h => ?_) fun h => meetsStreamTable_of_refused id (exec_b2cUpdate_refused msg h)
    obtain ⟨_, _, _, _, _, hv, hs, ho⟩ := exists_isVariant_of_open h
    exact meetsStreamTable_of_next id (hv.exec_update msg hs ho) (hv.phaseCode _)
  | b2cFinal =>
    refine .ite (fun h => ?_) fun h => meetsStreamTable_of_refused id (exec_b2cFinal_refused h)
    obtain ⟨_, _, _, _, _, hv, hs, ho⟩ := exists_isVariant_of_open h
    exact meetsStreamTable_of_next id (hv.exec_final hs ho) (hv.phaseCode _)
  | _ => exact meetsStreamTable_of_not_isStream rfl id s

end Sys2Proof.Machine
end

section
/-! PROOFS. What a command leaves of the controller, and that `B2C.RESET` returns to the construction
(43_blake2_streaming.md R227, "State written" of R225 to R229). -/

namespace Sys2Proof.Machine

open Sys2Proof.Reference

variable {w : Nat} {p : B2Params w} {block : B2Regs w → B2Block}
  {init : BitVec 7 → List Byte → List Byte → List Byte → Instr}

/-- Two controllers with the same parameter registers (10_state.md R30). -/
def SameParams (r r' : B2Regs w) : Prop :=
  r'.dlen = r.dlen ∧ r'.klen = r.klen ∧ r'.key = r.key ∧ r'.salt = r.salt ∧ r'.pers = r.pers

theorem SameParams.refl (r : B2Regs w) : SameParams r r := ⟨rfl, rfl, rfl, rfl, rfl⟩

theorem SameParams.trans {r r' r'' : B2Regs w} (h : SameParams r r') (h' : SameParams r' r'') : SameParams r r'' := by
  obtain ⟨hd, hk, hkey, hs, hp⟩ := h
  obtain ⟨hd', hk', hkey', hs', hp'⟩ := h'
  exact ⟨hd'.trans hd, hk'.trans hk, hkey'.trans hkey, hs'.trans hs, hp'.trans hp⟩

theorem SameParams.initState_eq {r r' : B2Regs w} (h : SameParams r r') : r'.initState p = r.initState p := by
  obtain ⟨hd, hk, hkey, hs, hp⟩ := h
  exact initState_congr p r' r hd hk hkey hs hp

/-- A construction is what `InitState()` makes of its own parameter registers. -/
theorem initState_construct (p : B2Params w) (dlen : BitVec 7) (key salt pers : List Byte) :
    (B2Regs.construct p dlen key salt pers).initState p = B2Regs.construct p dlen key salt pers :=
  SameParams.initState_eq ⟨rfl, rfl, rfl, rfl, rfl⟩

/-- The byte loop writes no parameter register (43_blake2_streaming.md R228). -/
theorem sameParams_update (p : B2Params w) (r : B2Regs w) (msg : List Byte) : SameParams r (r.update p msg) := by
  obtain ⟨hd, hk, hkey, hs, hp, -⟩ := updateBytes_frame p r msg
  exact ⟨hd, hk, hkey, hs, hp⟩

/-- A command other than a construction leaves a controller of the same variant with the same parameter registers, and
`B2C.FINAL` leaves the buffer. -/
theorem IsVariant.exec_keeps (hv : IsVariant p block init) {i : Instr} (hi : isB2Init i = false) {s : State}
    {r : B2Regs w} (hs : s.b2 = block r) :
    ∃ t r', exec i s = .next t ∧ t.b2 = block r' ∧ SameParams r r' ∧ (i = .b2cFinal → r'.buf = r.buf) := by
  have hclosed (hp : r.phase = .finalized) : ¬ (s.b2.phaseCode = 1 ∨ s.b2.phaseCode = 2) := by
    rw [hs, hv.phaseCode_open_iff]
    exact not_not.mpr hp
  cases hstream : isStream i with
  | false =>
    obtain ⟨t, hexec, hb2⟩ := exec_b2_of_not_isStream hstream s
    exact ⟨t, r, hexec, hb2.trans hs, .refl r, fun hf => nomatch hf ▸ hstream⟩
  | true =>
    cases i with
    | b2cReset => exact ⟨_, _, hv.exec_reset hs, rfl, ⟨rfl, rfl, rfl, rfl, rfl⟩, nofun⟩
    | b2cUpdate msg =>
      by_cases hp : r.phase = .finalized
      · exact ⟨_, r, exec_b2cUpdate_refused msg (hclosed hp), hs, .refl r, nofun⟩
      · exact ⟨_, _, hv.exec_update msg hs hp, rfl, sameParams_update p r msg, nofun⟩
    | b2cFinal =>
      by_cases hp : r.phase = .finalized
      · exact ⟨_, r, exec_b2cFinal_refused (hclosed hp), hs, .refl r, fun _ => rfl⟩
      · exact ⟨_, _, hv.exec_final hs hp, rfl, ⟨rfl, rfl, rfl, rfl, rfl⟩, fun _ => rfl⟩
    | b2bInit | b2sInit => cases hi
    | _ => cases hstream

/-- An unconfigured controller stays so under every command but a construction (44_system.md R260). -/
theorem exec_unconfigured {i : Instr} (hi : isB2Init i = false) {s : State} (hs : s.b2 = .unconfigured) :
    ∃ t, exec i s = .next t ∧ t.b2 = .unconfigured := by
  have hclosed : ¬ (s.b2.phaseCode = 1 ∨ s.b2.phaseCode = 2) := by
    rw [hs]
    decide
  cases hstream : isStream i with
  | false =>
    obtain ⟨t, hexec, hb2⟩ := exec_b2_of_not_isStream hstream s
    exact ⟨t, hexec, hb2.trans hs⟩
  | true =>
    cases i with
    | b2cReset => exact ⟨_, exec_b2cReset_refused (hs ▸ rfl), hs⟩
    | b2cUpdate msg => exact ⟨_, exec_b2cUpdate_refused msg hclosed, hs⟩
    | b2cFinal => exact ⟨_, exec_b2cFinal_refused hclosed, hs⟩
    | b2bInit | b2sInit => cases hi
    | _ => cases hstream

/-- Settles O22: a controller command runs on the streaming context alone, and of a configured one it keeps what
`IsVariant.exec_keeps` says. -/
theorem streamFrame : Obligations.StreamFrame := by
  intro i s t hi h
  obtain ⟨b', resp, -, hexec⟩ := runsOnB2_of_isStream hi s.b2
  have hnone (hn : isB2Init i = false) (hs : s.b2 = .unconfigured) : t.b2 = .unconfigured := by
    obtain ⟨t', hexec', hb2⟩ := exec_unconfigured hn hs
    cases hexec'.symm.trans h
    exact hb2
  have hkeep {w : Nat} {p : B2Params w} {block : B2Regs w → B2Block}
      {init : BitVec 7 → List Byte → List Byte → List Byte → Instr} (hv : IsVariant p block init)
      (hn : isB2Init i = false) (r : B2Regs w) (hs : s.b2 = block r) :
      ∃ r', t.b2 = block r' ∧ r'.dlen = r.dlen ∧ r'.klen = r.klen ∧ r'.key = r.key ∧ r'.salt = r.salt ∧
        r'.pers = r.pers ∧ (i = .b2cFinal → r'.buf = r.buf) := by
    obtain ⟨t', r', hexec', hb2, ⟨hd, hk, hkey, hsalt, hpers⟩, hbuf⟩ := hv.exec_keeps hn hs
    cases hexec'.symm.trans h
    exact ⟨r', hb2, hd, hk, hkey, hsalt, hpers, hbuf⟩
  cases (hexec s rfl).symm.trans h
  exact ⟨rfl, rfl, ⟨resp, rfl⟩, fun hn => ⟨hnone hn, hkeep .blake2b hn, hkeep .blake2s hn⟩⟩

/-- Any run without a construction leaves the variant and the parameter registers. -/
theorem IsVariant.execAll_keeps (hv : IsVariant p block init) (is : List Instr) (his : ∀ j ∈ is, isB2Init j = false)
    {s : State} {r : B2Regs w} (hs : s.b2 = block r) :
    ∃ t r', execAll is s = .next t ∧ t.b2 = block r' ∧ SameParams r r' := by
  induction is generalizing s r with
  | nil => exact ⟨s, r, rfl, hs, .refl r⟩
  | cons j js ih =>
    obtain ⟨hj, hjs⟩ := List.forall_mem_cons.mp his
    obtain ⟨t', r', hexec, hb2, hsame, -⟩ := hv.exec_keeps hj hs
    obtain ⟨t, r'', hrun, hb2', hsame'⟩ := ih hjs hb2
    exact ⟨t, r'', (execAll_cons hexec).trans hrun, hb2', hsame.trans hsame'⟩

/-- Settles O50: the parameter registers are still those of the construction, and they determine what `InitState()`
leaves. -/
theorem b2cResetRestoresTheConstruction : Obligations.B2cResetRestoresTheConstruction := by
  intro i is s hi hc his
  obtain ⟨w, p, block, init, dlen, key, salt, pers, hv, rfl⟩ := exists_isVariant_of_isB2Init hi
  have hinit := hv.exec_init s (not_not.mp (mt hv.configurationCase_iff.mpr hc))
  obtain ⟨t, r', hrun, hb2, hsame⟩ := hv.execAll_keeps is his
    (s := (s.setB2 (block (B2Regs.construct p dlen key salt pers))).respond .ok []) rfl
  have hsteps := (execAll_append (_ :: is) [.b2cReset] s t ((execAll_cons hinit).trans hrun)).trans
    (execAll_cons (hv.exec_reset hb2))
  refine ⟨_, _, hinit, hsteps, ?_, hv.phaseCode _⟩
  exact congrArg block (hsame.initState_eq.trans (initState_construct p dlen key salt pers))

end Sys2Proof.Machine
end

section
/-! PROOFS. The chain value, counter and buffer that `InitState()` leaves (43_blake2_streaming.md R221 to R223), and the
two `INIT` commands and `B2C.RESET`. -/

namespace Sys2Proof.Machine

open Sys2Proof.Reference

variable {w : Nat} {p : B2Params w} {block : B2Regs w → B2Block}
  {init : BitVec 7 → List Byte → List Byte → List Byte → Instr}

/-- The widths of a variant's parameter block: four words before the salt, and two words each for salt and
personalization (43_blake2_streaming.md R221, R222). -/
structure B2Params.LaidOut (p : B2Params w) : Prop where
  four_le_word : 4 ≤ w / 8
  before_salt : 10 + p.nodeOffsetLen + p.reservedLen = 4 * (w / 8)
  salt_two_words : p.saltLen = 2 * (w / 8)

theorem paramsB_laidOut : paramsB.LaidOut := ⟨by decide, by decide, by decide⟩

theorem paramsS_laidOut : paramsS.LaidOut := ⟨by decide, by decide, by decide⟩

theorem leNat_append_zeros (s : List Byte) (n : Nat) : leNat (s ++ zeros n) = leNat s := by
  induction s with
  | nil =>
    induction n with
    | zero => rfl
    | succ n ih => simpa [zeros, List.replicate_succ, leNat] using ih
  | cons b s ih => rw [List.cons_append, leNat, leNat, ih]

/-- Zero bytes are the word 0. -/
theorem leWord_zeros (w n : Nat) : leWord w (zeros n) = 0#w :=
  congrArg (BitVec.ofNat w) (leNat_append_zeros [] n)

/-- The i-th of equally long groups, cut out of their concatenation. -/
theorem slice_flatten {n : Nat} {gs : List (List Byte)} (hgs : ∀ g ∈ gs, g.length = n) {i : Nat}
    (hi : i < gs.length) : slice gs.flatten (n * i) n = gs[i] := by
  have hlens : gs.map List.length = List.replicate gs.length n := List.map_eq_replicate_iff.mpr hgs
  have hcut := List.drop_take_succ_flatten_eq_getElem gs i hi
  rw [hlens, List.take_replicate, List.take_replicate, Nat.min_eq_left hi, Nat.min_eq_left hi.le,
    List.sum_replicate, List.sum_replicate, List.drop_take, smul_eq_mul, smul_eq_mul, Nat.succ_mul,
    Nat.add_sub_cancel_left] at hcut
  rw [slice, Nat.mul_comm, hcut]

/-- The parameter block in words: lengths, fanout and depth, three words of zeros, salt, personalization
(43_blake2_streaming.md R221, R222). -/
def paramWords (r : B2Regs w) : List (List Byte) :=
  [[r.dlen.setWidth 8, r.klen.setWidth 8, 1, 1] ++ zeros (w / 8 - 4), zeros (w / 8), zeros (w / 8), zeros (w / 8),
    r.salt.take (w / 8), r.salt.drop (w / 8), r.pers.take (w / 8), r.pers.drop (w / 8)]

/-- The zero fields before the salt fill up four words behind lengths, fanout and depth. -/
theorem paramBlock_eq_flatten (hl : p.LaidOut) (r : B2Regs w) :
    paramBlock p r = (paramWords r).flatten := by
  obtain ⟨hfour, hbefore, -⟩ := hl
  have hone : [(0 : Byte)] = zeros 1 := rfl
  have hzeros : zeros 4 ++ zeros p.nodeOffsetLen ++ [0] ++ [0] ++ zeros p.reservedLen =
      zeros (w / 8 - 4) ++ zeros (w / 8) ++ zeros (w / 8) ++ zeros (w / 8) := by
    simp only [hone, zeros, List.replicate_append_replicate]
    congr 1
    omega
  have hsplit (x rest : List Byte) : x.take (w / 8) ++ (x.drop (w / 8) ++ rest) = x ++ rest := by
    rw [← List.append_assoc, List.take_append_drop]
  calc paramBlock p r
      = [r.dlen.setWidth 8, r.klen.setWidth 8, 1, 1] ++
          (zeros 4 ++ zeros p.nodeOffsetLen ++ [0] ++ [0] ++ zeros p.reservedLen) ++ (r.salt ++ r.pers) := by
        simp only [paramBlock, List.append_assoc]
    _ = (paramWords r).flatten := by
        rw [hzeros]
        simp [paramWords, hsplit]

theorem paramWords_length (hl : p.LaidOut) {r : B2Regs w} (hs : r.salt.length = p.saltLen)
    (hp : r.pers.length = p.saltLen) : ∀ g ∈ paramWords r, g.length = w / 8 := by
  obtain ⟨hfour, -, hsalt⟩ := hl
  simp only [paramWords, List.forall_mem_cons, List.length_append, List.length_cons, List.length_nil, zeros_length,
    List.length_take, List.length_drop, hs, hp, hsalt]
  exact ⟨by omega, trivial, trivial, trivial, by omega, by omega, by omega, by omega, nofun⟩

/-- The lengths, fanout and depth as word 0 (43_blake2_streaming.md R221, R222). -/
theorem leWord_lengths (dlen klen : BitVec 7) (n : Nat) :
    leWord w ([dlen.setWidth 8, klen.setWidth 8, 1, 1] ++ zeros n) =
      BitVec.ofNat w (0x01010000 + 2 ^ 8 * klen.toNat + dlen.toNat) := by
  have hbyte (v : BitVec 7) : (v.setWidth 8).toNat = v.toNat :=
    BitVec.toNat_setWidth_of_le (by decide)
  have hone : (1 : Byte).toNat = 1 := rfl
  rw [leWord, leNat_append_zeros]
  simp only [leNat, hbyte, hone]
  congr 1
  omega

/-- The chain value `InitState()` leaves, word by word (43_blake2_streaming.md R223). -/
theorem initState_h (hl : p.LaidOut) {r : B2Regs w} (hs : r.salt.length = p.saltLen)
    (hp : r.pers.length = p.saltLen) :
    (r.initState p).h = chainStart p r.dlen.toNat r.klen.toNat r.salt r.pers := by
  refine Vector.ext fun i hi => ?_
  rw [initState_h_getElem, paramBlock_eq_flatten hl, slice_flatten (paramWords_length hl hs hp) hi]
  match i, hi with
  | 0, _ => exact congrArg (p.iv[0] ^^^ ·) (leWord_lengths r.dlen r.klen (w / 8 - 4))
  | 1, _ | 2, _ | 3, _ => simp [paramWords, chainStart, leWord_zeros]
  | 4, _ | 5, _ | 6, _ | 7, _ => rfl

/-- The registers `InitState()` leaves: the buffer holds the padded key, if there is one (43_blake2_streaming.md R223). -/
theorem initState_eq (hl : p.LaidOut) {r : B2Regs w} (hk : r.key.length = r.klen.toNat)
    (hs : r.salt.length = p.saltLen) (hp : r.pers.length = p.saltLen) :
    r.initState p =
      { r with
        phase := .initialized
        h := chainStart p r.dlen.toNat r.klen.toNat r.salt r.pers
        t := 0
        buf := if r.klen = 0 then [] else r.key ++ zeros (blockBytes w - r.key.length) } := by
  rw [← initState_h hl hs hp, hk]
  rfl

/-- An absent salt or personalization as the register holds it (43_blake2_streaming.md R225). -/
def stored (n : Nat) (x : List Byte) : List Byte := if x = [] then zeros n else x

/-- An absent salt or personalization contributes what zero bytes contribute. -/
theorem chainStart_stored (p : B2Params w) (dlen klen n : Nat) (salt pers : List Byte) :
    chainStart p dlen klen (stored n salt) (stored n pers) = chainStart p dlen klen salt pers := by
  have habsent (m : Nat) (x : List Byte) : leWord w ((stored n x).take m) = leWord w (x.take m) ∧
      leWord w ((stored n x).drop m) = leWord w (x.drop m) := by
    by_cases hx : x = []
    · have htake : (zeros n).take m = zeros (min m n) := List.take_replicate
      have hdrop : (zeros n).drop m = zeros (n - m) := List.drop_replicate
      rw [stored, if_pos hx, htake, hdrop, hx, List.take_nil, List.drop_nil, leWord_zeros, leWord_zeros]
      exact ⟨rfl, rfl⟩
    · rw [stored, if_neg hx]
      exact ⟨rfl, rfl⟩
  simp only [chainStart, habsent]

/-- The registers of a construction with valid parameters (43_blake2_streaming.md R225). -/
theorem construct_eq (hf : p.Fits) (hl : p.LaidOut) {dlen : BitVec 7} {key salt pers : List Byte}
    (hv : validParams p dlen.toNat key.length salt.length pers.length = true) :
    B2Regs.construct p dlen key salt pers =
      { phase := .initialized, dlen := dlen, klen := BitVec.ofNat 7 key.length, key := key
        salt := stored p.saltLen salt
        pers := stored p.saltLen pers
        h := chainStart p dlen.toNat key.length salt pers
        t := 0
        buf := keyBlock w key } := by
  obtain ⟨⟨-, ⟨-, hkey⟩, hsalt, hpers⟩, -⟩ := (inv_iff p _).mp (construct_inv hf hv)
  have hklen : key.length = (BitVec.ofNat 7 key.length).toNat := hkey
  have hnil : BitVec.ofNat 7 key.length = 0 ↔ key = [] := by
    rw [← BitVec.toNat_inj, ← hklen]
    exact List.length_eq_zero_iff
  have hchain : chainStart p dlen.toNat (BitVec.ofNat 7 key.length).toNat (stored p.saltLen salt)
      (stored p.saltLen pers) = chainStart p dlen.toNat key.length salt pers := by
    rw [← hklen, chainStart_stored]
  have hbuf : (if BitVec.ofNat 7 key.length = 0 then [] else key ++ zeros (blockBytes w - key.length)) =
      keyBlock w key := by
    simp only [hnil]
    rfl
  rw [← initState_construct, initState_eq hl hkey hsalt hpers, ← hchain, ← hbuf]
  rfl

theorem IsVariant.fits (hv : IsVariant p block init) : p.Fits := by
  cases hv with
  | blake2b => exact paramsB_fits
  | blake2s => exact paramsS_fits

theorem IsVariant.laidOut (hv : IsVariant p block init) : p.LaidOut := by
  cases hv with
  | blake2b => exact paramsB_laidOut
  | blake2s => exact paramsS_laidOut

/-- Settles O47: the registers are those of `construct_eq`. -/
theorem b2bInitResult : Obligations.B2bInitResult := by
  intro dlen key salt pers s h
  have hvalid := (validParams_b dlen key salt pers).mpr h
  rw [IsVariant.blake2b.exec_init s hvalid, construct_eq paramsB_fits paramsB_laidOut hvalid]
  rfl

/-- Settles O48: the registers are those of `construct_eq`. -/
theorem b2sInitResult : Obligations.B2sInitResult := by
  intro dlen key salt pers s h
  have hvalid := (validParams_s dlen key salt pers).mpr h
  rw [IsVariant.blake2s.exec_init s hvalid, construct_eq paramsS_fits paramsS_laidOut hvalid]
  rfl

/-- Settles O49: `B2C.RESET` is `InitState()`, and `initState_eq` says what that leaves. -/
theorem b2cResetResult : Obligations.B2cResetResult := by
  constructor
  · intro s r hs hk hsalt hpers
    rw [IsVariant.blake2b.exec_reset hs, initState_eq paramsB_laidOut hk hsalt hpers]
    rfl
  · intro s r hs hk hsalt hpers
    rw [IsVariant.blake2s.exec_reset hs, initState_eq paramsS_laidOut hk hsalt hpers]
    rfl

end Sys2Proof.Machine
end

section
/-! PROOFS. Taking in bytes one at a time is compressing all blocks but the last of buffer and message
(43_blake2_streaming.md R228, R230), and the last compression (R229). -/

namespace Sys2Proof.Machine

open Sys2Proof.Reference

variable {w : Nat}

/-- A counter advanced by n bytes (43_blake2_streaming.md R230). -/
theorem counter_add (t : BitVec (2 * w)) (n : Nat) :
    t + BitVec.ofNat (2 * w) n = BitVec.ofNat (2 * w) (t.toNat + n) := by
  rw [BitVec.ofNat_add, BitVec.ofNat_toNat, BitVec.setWidth_eq]

/-- The low word of a counter of n bytes (20_memory.md R67). -/
theorem extractLsb'_low_ofNat (w n : Nat) : (BitVec.ofNat (2 * w) n).extractLsb' 0 w = countLow w n := by
  apply BitVec.eq_of_toNat_eq
  rw [BitVec.extractLsb'_toNat, BitVec.toNat_ofNat, Nat.shiftRight_zero,
    Nat.mod_mod_of_dvd n (Nat.pow_dvd_pow 2 (by omega))]
  simp [countLow]

/-- The high word of a counter of n bytes, which wraps at 2w bits (43_blake2_streaming.md R230). -/
theorem extractLsb'_high_ofNat (w n : Nat) : (BitVec.ofNat (2 * w) n).extractLsb' w w = countHigh w n := by
  apply BitVec.eq_of_toNat_eq
  rw [BitVec.extractLsb'_toNat, BitVec.toNat_ofNat, Nat.shiftRight_eq_div_pow, Nat.two_mul, Nat.pow_add,
    Nat.mod_mul_right_div_self, Nat.mod_mod]
  simp [countHigh]

/-- One compression, with the number of bytes the counter then shows (43_blake2_streaming.md R230). -/
theorem compressBuf_eq (p : B2Params w) (r : B2Regs w) (last : Bool) {n : Nat}
    (hn : r.t + BitVec.ofNat (2 * w) r.buf.length = BitVec.ofNat (2 * w) n) :
    r.compressBuf p last =
      { r with
        t := BitVec.ofNat (2 * w) n
        h := compressF p r.h (wordsOfBytes w 16 (r.buf ++ zeros (blockBytes w - r.buf.length))) (countLow w n)
          (countHigh w n) last } := by
  simp only [B2Regs.compressBuf, hn, extractLsb'_low_ofNat, extractLsb'_high_ofNat]

/-- The registers once k blocks of the data D, which starts with the buffer, have been compressed
(43_blake2_streaming.md R228). -/
def B2Regs.afterBlocks (p : B2Params w) (r : B2Regs w) (d : List Byte) (k : Nat) : B2Regs w :=
  { r with
    h := chainAfter p r.t.toNat r.h d k
    t := r.t + BitVec.ofNat (2 * w) (blockBytes w * k)
    buf := d.drop (blockBytes w * k) }

/-- The blocks compressed and the buffer behind them make up the data, and so does their count. -/
theorem afterBlocks_count (p : B2Params w) (r : B2Regs w) {d : List Byte} {k : Nat} (hk : blockBytes w * k ≤ d.length) :
    (r.afterBlocks p d k).t + BitVec.ofNat (2 * w) (r.afterBlocks p d k).buf.length =
      r.t + BitVec.ofNat (2 * w) d.length := by
  rw [B2Regs.afterBlocks, List.length_drop, BitVec.add_assoc, ← BitVec.ofNat_add, Nat.add_sub_cancel' hk]

/-- Blocks are cut from the front: data appended behind them changes nothing. -/
theorem chainAfter_append (p : B2Params w) (count : Nat) (h : Vector (BitVec w) 8) {d : List Byte} {k : Nat}
    (hk : blockBytes w * k ≤ d.length) (e : List Byte) :
    chainAfter p count h (d ++ e) k = chainAfter p count h d k := by
  induction k with
  | zero => rfl
  | succ k ih =>
    rw [Nat.mul_succ] at hk
    have hslice : slice (d ++ e) (blockBytes w * k) (blockBytes w) = slice d (blockBytes w * k) (blockBytes w) := by
      rw [slice, slice, List.drop_append_of_le_length (by omega), List.take_append_of_le_length (by simp; omega)]
    rw [chainAfter, chainAfter, ih (by omega), hslice]

/-- A byte behind a buffer that is not full joins it. -/
theorem updateByte_afterBlocks_of_not_full (p : B2Params w) (r : B2Regs w) (b : Byte) {d : List Byte} {k : Nat}
    (hk : blockBytes w * k ≤ d.length) (hne : d.length ≠ blockBytes w * (k + 1)) :
    (r.afterBlocks p d k).updateByte p b = r.afterBlocks p (d ++ [b]) k := by
  have hlen : (r.afterBlocks p d k).buf.length = d.length - blockBytes w * k := List.length_drop
  rw [Nat.mul_succ] at hne
  obtain ⟨hfull, -⟩ | ⟨-, heq⟩ := updateByte_cases p (r.afterBlocks p d k) b
  · omega
  · rw [heq, B2Regs.afterBlocks, B2Regs.afterBlocks, chainAfter_append p _ _ hk, List.drop_append_of_le_length hk]

/-- A byte behind a full buffer has it compressed: one block more. -/
theorem updateByte_afterBlocks_of_full (p : B2Params w) (r : B2Regs w) (b : Byte) {d : List Byte} {k : Nat}
    (hd : d.length = blockBytes w * (k + 1)) :
    (r.afterBlocks p d k).updateByte p b = r.afterBlocks p (d ++ [b]) (k + 1) := by
  have hle : blockBytes w * k ≤ d.length := hd ▸ Nat.mul_le_mul_left _ k.le_succ
  have hbuf : (r.afterBlocks p d k).buf.length = blockBytes w := by
    simp [B2Regs.afterBlocks, hd, Nat.mul_succ]
  have hblock : slice (d ++ [b]) (blockBytes w * k) (blockBytes w) = d.drop (blockBytes w * k) := by
    rw [slice, List.drop_append_of_le_length hle]
    exact List.take_left' hbuf
  have hcount : (r.afterBlocks p d k).t + BitVec.ofNat (2 * w) (r.afterBlocks p d k).buf.length =
      BitVec.ofNat (2 * w) (r.t.toNat + blockBytes w * (k + 1)) := by
    rw [afterBlocks_count p r hle, hd, counter_add]
  obtain ⟨-, heq⟩ | ⟨hne, -⟩ := updateByte_cases p (r.afterBlocks p d k) b
  · rw [heq, compressBuf_eq p _ false hcount, hbuf, Nat.sub_self]
    simp only [B2Regs.afterBlocks, chainAfter, hblock, chainAfter_append p _ _ hle, ← hd, List.drop_left, zeros,
      List.replicate_zero, List.append_nil, counter_add]
  · exact absurd hbuf hne

/-- No interior block in at most one block of data. -/
theorem interiorBlocks_of_le {n : Nat} (hb : 0 < blockBytes w) (h : n ≤ blockBytes w) : interiorBlocks w n = 0 :=
  Nat.div_eq_of_lt (by omega)

/-- What is behind the interior blocks is at most one block. -/
theorem interiorBlocks_bounds {n : Nat} (hb : 0 < blockBytes w) :
    blockBytes w * interiorBlocks w n ≤ n ∧ n ≤ blockBytes w * (interiorBlocks w n + 1) := by
  have hdiv := Nat.div_add_mod (n - 1) (blockBytes w)
  have hmod := Nat.mod_lt (n - 1) hb
  rw [interiorBlocks, Nat.mul_succ]
  omega

/-- One byte more makes the last block interior if it was full, and else changes nothing. -/
theorem interiorBlocks_succ {n : Nat} (hb : 0 < blockBytes w) :
    interiorBlocks w (n + 1) =
      if n = blockBytes w * (interiorBlocks w n + 1) then interiorBlocks w n + 1 else interiorBlocks w n := by
  obtain ⟨hlo, hhi⟩ := interiorBlocks_bounds (n := n) hb
  rw [interiorBlocks, Nat.add_sub_cancel]
  split
  next h => rw [h, Nat.mul_div_cancel_left _ hb, ← h]
  next h => exact Nat.div_eq_of_lt_le (by rwa [Nat.mul_comm]) (by rw [Nat.mul_comm]; omega)

/-- The byte loop block by block (43_blake2_streaming.md R228): by induction on the message from its end, where a byte
either joins the buffer or has the full buffer compressed. -/
theorem updateBytes_eq (p : B2Params w) (r : B2Regs w) (msg : List Byte) (hb : 0 < blockBytes w)
    (hbuf : r.buf.length ≤ blockBytes w) :
    msg.foldl (B2Regs.updateByte p) r = r.afterBlocks p (r.buf ++ msg) (interiorBlocks w (r.buf ++ msg).length) := by
  induction msg using List.reverseRecOn with
  | nil => simp [interiorBlocks_of_le hb hbuf, B2Regs.afterBlocks, chainAfter]
  | append_singleton msg b ih =>
    obtain ⟨hlo, -⟩ := interiorBlocks_bounds (n := (r.buf ++ msg).length) hb
    rw [List.foldl_append, ih, ← List.append_assoc, List.length_append (bs := [b]), List.length_singleton,
      interiorBlocks_succ hb, List.foldl_cons, List.foldl_nil]
    split
    next hfull => exact updateByte_afterBlocks_of_full p r b hfull
    next hfull => exact updateByte_afterBlocks_of_not_full p r b hlo hfull

theorem update_eq (p : B2Params w) (r : B2Regs w) (msg : List Byte) (hb : 0 < blockBytes w)
    (hbuf : r.buf.length ≤ blockBytes w) :
    r.update p msg =
      { r.afterBlocks p (r.buf ++ msg) (interiorBlocks w (r.buf ++ msg).length) with phase := .updating } := by
  rw [B2Regs.update, updateBytes_eq p r msg hb hbuf]

/-- Settles O51: it is `update_eq`, the block-by-block form of the bytewise loop. -/
theorem b2cUpdateResult : Obligations.B2cUpdateResult := by
  constructor
  · intro msg s r hs hp hbuf
    rw [IsVariant.blake2b.exec_update msg hs hp, update_eq paramsB r msg (by decide) hbuf]
    rfl
  · intro msg s r hs hp hbuf
    rw [IsVariant.blake2s.exec_update msg hs hp, update_eq paramsS r msg (by decide) hbuf]
    rfl

/-- The last compression, with the number of bytes the counter then shows (43_blake2_streaming.md R229). -/
theorem final_eq (p : B2Params w) (r : B2Regs w) {n : Nat}
    (hn : r.t + BitVec.ofNat (2 * w) r.buf.length = BitVec.ofNat (2 * w) n) :
    r.final p =
      { r with
        phase := .finalized
        t := BitVec.ofNat (2 * w) n
        h := compressF p r.h (wordsOfBytes w 16 (r.buf ++ zeros (blockBytes w - r.buf.length))) (countLow w n)
          (countHigh w n) true } := by
  rw [B2Regs.final, compressBuf_eq p r true hn]

/-- Settles O53: it is `final_eq`, the counter words being those of the wrapped count. -/
theorem b2cFinalResult : Obligations.B2cFinalResult := by
  have hwrap (m n : Nat) : BitVec.ofNat m (n % 2 ^ m) = BitVec.ofNat m n := BitVec.eq_of_toNat_eq (by simp)
  constructor
  · intro s r hs hp
    refine ⟨_, rfl, ?_⟩
    rw [IsVariant.blake2b.exec_final hs hp, final_eq paramsB r ((counter_add r.t _).trans (hwrap _ _).symm), hwrap]
    rfl
  · intro s r hs hp
    refine ⟨_, rfl, ?_⟩
    rw [IsVariant.blake2s.exec_final hs hp, final_eq paramsS r ((counter_add r.t _).trans (hwrap _ _).symm), hwrap]
    rfl

end Sys2Proof.Machine
end

section
/-! PROOFS. Runs of controller commands: a message updated in pieces is the message updated whole, and a run from an
`INIT` to `B2C.FINAL` is BLAKE2 of the whole message (43_blake2_streaming.md R232). -/

namespace Sys2Proof.Machine

open Sys2Proof.Reference

variable {w : Nat} {p : B2Params w} {block : B2Regs w → B2Block}
  {init : BitVec 7 → List Byte → List Byte → List Byte → Instr}

/-- Updating with pieces, the first of which sets the phase, is updating with the whole. -/
theorem foldl_update (p : B2Params w) (r : B2Regs w) (piece : List Byte) (pieces : List (List Byte)) :
    (piece :: pieces).foldl (B2Regs.update p) r = r.update p (piece :: pieces).flatten := by
  induction pieces generalizing piece with
  | nil => rw [List.flatten_singleton, List.foldl_cons, List.foldl_nil]
  | cons piece' pieces ih =>
    calc (piece :: piece' :: pieces).foldl (B2Regs.update p) r
        = pieces.foldl (B2Regs.update p) ((r.update p piece).update p piece') := rfl
      _ = ((piece ++ piece') :: pieces).foldl (B2Regs.update p) r := by rw [update_append, List.foldl_cons]
      _ = r.update p (piece :: piece' :: pieces).flatten := by
        rw [ih, List.flatten_cons, List.flatten_cons, List.flatten_cons, List.append_assoc]

/-- `B2C.FINAL` does not look at the phase, the one thing in which no update differs from an empty one. -/
theorem final_foldl_update (p : B2Params w) (r : B2Regs w) (pieces : List (List Byte)) :
    (pieces.foldl (B2Regs.update p) r).final p = (r.update p pieces.flatten).final p := by
  cases pieces with
  | nil => rfl
  | cons piece pieces => rw [foldl_update]

/-- Updating with pieces one after another: all are answered `OK`, and the controller stays open. -/
theorem IsVariant.execAll_update (hv : IsVariant p block init) (pieces : List (List Byte)) {s : State} {r : B2Regs w}
    (hs : s.b2 = block r) (ho : r.phase ≠ .finalized) :
    ∃ t, execAll (pieces.map .b2cUpdate) s = .next t ∧ t.b2 = block (pieces.foldl (B2Regs.update p) r) ∧
      (pieces.foldl (B2Regs.update p) r).phase ≠ .finalized ∧
      t.responses = s.responses ++ List.replicate pieces.length ⟨.ok, []⟩ := by
  induction pieces generalizing s r with
  | nil => exact ⟨s, rfl, hs, ho, (List.append_nil _).symm⟩
  | cons piece pieces ih =>
    obtain ⟨t, hrun, hb2, hopen, hresp⟩ :=
      ih (s := (s.setB2 (block (r.update p piece))).respond .ok []) (r := r.update p piece) rfl nofun
    refine ⟨t, (execAll_cons (hv.exec_update piece hs ho)).trans hrun, hb2, hopen, ?_⟩
    rw [hresp, respond_responses, setB2_responses, List.append_assoc]
    rfl

/-- Settles O52: both runs end in the controller updated with the concatenation. -/
theorem b2cUpdateStreams : Obligations.B2cUpdateStreams := by
  intro pieces s hne hphase
  obtain ⟨w, p, block, init, r, hv, hs, ho⟩ := exists_isVariant_of_open hphase
  obtain ⟨t, hrun, hb2, -, hresp⟩ := hv.execAll_update pieces hs ho
  obtain ⟨piece, pieces, rfl⟩ := List.exists_cons_of_ne_nil hne
  exact ⟨t, _, hrun, hv.exec_update _ hs ho, hb2.trans (congrArg block (foldl_update p r piece pieces)), hresp⟩

/-- Message and last compression from counter 0 on: the chain value is that of buffer and message
(43_blake2_streaming.md R232 (b)). -/
theorem final_update_h {r : B2Regs w} (hb : 0 < blockBytes w) (hbuf : r.buf.length ≤ blockBytes w) (ht : r.t = 0)
    (msg : List Byte) : ((r.update p msg).final p).h = b2Chain p r.h (r.buf ++ msg) := by
  obtain ⟨hle, -⟩ := interiorBlocks_bounds (n := (r.buf ++ msg).length) hb
  have hcount : (r.update p msg).t + BitVec.ofNat (2 * w) (r.update p msg).buf.length =
      BitVec.ofNat (2 * w) (r.buf ++ msg).length := by
    rw [update_eq p r msg hb hbuf, afterBlocks_count p r hle, ht, zero_add]
  rw [final_eq p _ hcount, update_eq p r msg hb hbuf]
  simp only [B2Regs.afterBlocks, ht]
  rfl

/-- Construction, message, last compression: the digest is BLAKE2 of key block and message (43_blake2_streaming.md R232
(b)). -/
theorem digest_final_update_construct (hf : p.Fits) (hl : p.LaidOut) {dlen : BitVec 7} {key salt pers : List Byte}
    (hv : validParams p dlen.toNat key.length salt.length pers.length = true) (msg : List Byte) :
    (((B2Regs.construct p dlen key salt pers).update p msg).final p).digest = b2Digest p dlen key salt pers msg := by
  obtain ⟨-, hbuf, -⟩ := (inv_iff p _).mp (construct_inv hf hv)
  obtain ⟨hdlen, -⟩ := sameParams_update p (B2Regs.construct p dlen key salt pers) msg
  have hdlen : (((B2Regs.construct p dlen key salt pers).update p msg).final p).dlen = dlen := hdlen
  rw [B2Regs.digest, hdlen, final_update_h (Nat.zero_lt_of_lt hf.key_lt_block) hbuf rfl, construct_eq hf hl hv]
  rfl

/-- From any state an `INIT` with valid parameters, the message in pieces and `B2C.FINAL` answer the digest of the whole
message, for either variant (43_blake2_streaming.md R232). -/
theorem IsVariant.execAll_hash (hv : IsVariant p block init) {dlen : BitVec 7} {key salt pers : List Byte}
    (hp : validParams p dlen.toNat key.length salt.length pers.length = true) (pieces : List (List Byte)) (s : State) :
    ∃ t, execAll (init dlen key salt pers :: pieces.map .b2cUpdate ++ [.b2cFinal]) s = .next t ∧
      t.responses = s.responses ++ List.replicate (pieces.length + 1) ⟨.ok, []⟩ ++
        [⟨.ok, b2Digest p dlen key salt pers pieces.flatten⟩] := by
  obtain ⟨t, hrun, hb2, hopen, hresp⟩ := hv.execAll_update pieces
    (s := (s.setB2 (block (B2Regs.construct p dlen key salt pers))).respond .ok []) rfl nofun
  have hfinal := hv.exec_final hb2 hopen
  rw [final_foldl_update, digest_final_update_construct hv.fits hv.laidOut hp] at hfinal
  have hsteps := (execAll_append (_ :: _) [.b2cFinal] s t ((execAll_cons (hv.exec_init s hp)).trans hrun)).trans
    (execAll_cons hfinal)
  refine ⟨_, hsteps, ?_⟩
  rw [respond_responses, setB2_responses, hresp, respond_responses, setB2_responses, List.append_assoc s.responses]
  rfl

/-- Settles O54: BLAKE2b is a variant of the controller. -/
theorem blake2bIsTheHashFunction : Obligations.Blake2bIsTheHashFunction :=
  fun dlen key salt pers pieces s h =>
    IsVariant.blake2b.execAll_hash ((validParams_b dlen key salt pers).mpr h) pieces s

/-- Settles O55: BLAKE2s is a variant of the controller. -/
theorem blake2sIsTheHashFunction : Obligations.Blake2sIsTheHashFunction :=
  fun dlen key salt pers pieces s h =>
    IsVariant.blake2s.execAll_hash ((validParams_s dlen key salt pers).mpr h) pieces s

end Sys2Proof.Machine
end

section
/-! PROOFS. No step returns a configured block to `UNCONFIGURED` (44_system.md R260). -/

namespace Sys2Proof.Machine

/-- A move of the sponge ends in a configured one, or changes nothing. -/
theorem SpMove.phaseCode_ne_zero {b b' : SpBlock} (hm : SpMove b b') (h : b.phaseCode ≠ 0) : b'.phaseCode ≠ 0 := by
  cases hm with
  | stay _ => exact h
  | init | absorb | finalize | squeeze | digest => exact sp_phaseCode_ne_zero _

/-- A move of the controller ends in a configured one, or changes nothing. -/
theorem B2Move.phaseCode_ne_zero {b b' : B2Block} (hm : B2Move b b') (h : b.phaseCode ≠ 0) : b'.phaseCode ≠ 0 := by
  cases hm with
  | stay _ => exact h
  | constructB | constructS | regsB | regsS => simp

/-- A step makes a move of each context: waiting and refusing an illegal command leave both. -/
theorem step_moves {s t : State} (h : step s = .next t) : SpMove s.sp t.sp ∧ B2Move s.b2 t.b2 := by
  cases hc : s.commands with
  | nil =>
    cases (step_of_no_command hc).symm.trans h
    exact ⟨.stay _, .stay _⟩
  | cons c rest =>
    cases hd : decode c with
    | ok i => exact exec_moves (s := s.taking rest) ((step_of_decode_ok hc hd).symm.trans h)
    | error e =>
      cases (step_of_decode_error hc hd).symm.trans h
      exact ⟨.stay _, .stay _⟩

/-- Settles O16: a step makes a move of each context, and no move leads back to `UNCONFIGURED`. -/
theorem noWayBackToUnconfigured : Obligations.NoWayBackToUnconfigured := by
  intro s t h
  obtain ⟨hsp, hb2⟩ := step_moves h
  exact ⟨hsp.phaseCode_ne_zero, hb2.phaseCode_ne_zero⟩

end Sys2Proof.Machine
end

section
/-! PROOFS. The value and the four bytes that `RDREG` answers (10_state.md R38, 44_system.md R262). -/

namespace Sys2Proof.Machine

open Sys2Proof.Reference Sys2Proof.Laws

/-- A register's word written out, least significant byte first (00_scope.md R10). -/
theorem wordBytes_word (v : Word) :
    wordBytes v = [BitVec.ofNat 8 v.toNat, BitVec.ofNat 8 (v.toNat / 2 ^ 8), BitVec.ofNat 8 (v.toNat / 2 ^ 16),
      BitVec.ofNat 8 (v.toNat / 2 ^ 24)] := by
  simp [wordBytes, natBytes, Nat.div_div_eq_div_mul]

/-- A field of a register put above the bits already set adds its value at its place. -/
theorem toNat_or_field {k : Nat} (low : Word) (field : BitVec k) (off : Nat) (hlow : low.toNat < 2 ^ off)
    (hfit : off + k ≤ 32) : (low ||| field.setWidth 32 <<< off).toNat = low.toNat + 2 ^ off * field.toNat := by
  have hfield : 2 ^ off * field.toNat < 2 ^ 32 :=
    calc 2 ^ off * field.toNat < 2 ^ off * 2 ^ k := Nat.mul_lt_mul_of_pos_left field.isLt (Nat.two_pow_pos off)
      _ = 2 ^ (off + k) := (Nat.pow_add ..).symm
      _ ≤ 2 ^ 32 := Nat.pow_le_pow_right Nat.two_pos hfit
  have hshift : (field.setWidth 32 <<< off).toNat = 2 ^ off * field.toNat := by
    rw [BitVec.toNat_shiftLeft, BitVec.toNat_setWidth_of_le (by omega), Nat.shiftLeft_eq,
      Nat.mul_comm, Nat.mod_eq_of_lt hfield]
  rw [BitVec.toNat_or, hshift, Nat.or_comm, ← Nat.two_pow_add_eq_or_of_lt hlow, Nat.add_comm]

/-- `PHASE`, `VAR` and `XOF` of `SP_STATUS` as a number (10_state.md R38). -/
theorem spStatusValue_toNat (r : SpRegs) :
    (spStatusValue (.configured r)).toNat =
      (SpBlock.configured r).phaseCode.toNat + 2 ^ 4 * r.var.id.toNat + 2 ^ 8 * (isShake (.configured r)).toNat := by
  have hcode := (SpBlock.configured r).phaseCode.isLt
  have hid := r.var.id.isLt
  have hphase : ((SpBlock.configured r).phaseCode.setWidth 32).toNat = (SpBlock.configured r).phaseCode.toNat :=
    BitVec.toNat_setWidth_of_le (by decide)
  have hvar := toNat_or_field ((SpBlock.configured r).phaseCode.setWidth 32) r.var.id 4 (by omega) (by decide)
  rw [spStatusValue, toNat_or_field _ _ 8 (by omega) (by decide), hvar, hphase, BitVec.toNat_ofBool,
    isShake_configured]

/-- `PHASE` and `VAR` of `B2_STATUS` as a number (10_state.md R38). -/
theorem b2StatusValue_toNat (b : B2Block) :
    (b2StatusValue b).toNat = b.phaseCode.toNat + 2 ^ 4 * b.varCode.toNat := by
  have hcode := b.phaseCode.isLt
  have hphase : (b.phaseCode.setWidth 32).toNat = b.phaseCode.toNat := BitVec.toNat_setWidth_of_le (by decide)
  rw [b2StatusValue, toNat_or_field _ _ 4 (by omega) (by decide), hphase]

/-- A rate fits a register (00_scope.md R8). -/
theorem rate_toNat (v : SpVar) : (BitVec.ofNat 32 v.rate).toNat = v.rate := by
  obtain ⟨-, hrate, -⟩ := rate_bounds v
  exact Nat.mod_eq_of_lt (by omega)

/-- A digest length fits a register (00_scope.md R8). -/
theorem dlen_toNat (v : SpVar) : (BitVec.ofNat 32 (v.dlen.getD 0)).toNat = v.dlen.getD 0 := by
  obtain ⟨-, hrate, hdlen⟩ := rate_bounds v
  exact Nat.mod_eq_of_lt (by omega)

/-- Settles O56: the answer is the register's word written out, and its value is read off field by field. -/
theorem rdregResult : Obligations.RdregResult := by
  intro reg s
  refine ⟨(readReg reg s).toNat, by rw [exec_rdreg, wordBytes_word, answered], ?_⟩
  obtain ⟨commands, sp, b2, responses⟩ := s
  cases reg with
  | id => rfl
  | spStatus =>
    cases sp with
    | unconfigured => rfl
    | configured r => exact spStatusValue_toNat r
  | spRate =>
    cases sp with
    | unconfigured => rfl
    | configured r => exact rate_toNat r.var
  | spDlen =>
    cases sp with
    | unconfigured => rfl
    | configured r => exact dlen_toNat r.var
  | b2Status => exact b2StatusValue_toNat b2
  | b2Dlen =>
    cases b2 with
    | unconfigured => rfl
    | blake2b r | blake2s r => exact BitVec.toNat_setWidth_of_le (by decide)
  | b2Klen =>
    cases b2 with
    | unconfigured => rfl
    | blake2b r | blake2s r => exact BitVec.toNat_setWidth_of_le (by decide)

end Sys2Proof.Machine
end

section
/-! PROOFS. What a step that gives a response can end in, and the two statements about every error (60_exceptions.md
R273, R274). -/

namespace Sys2Proof.Machine

open Sys2Proof.Reference

/-- Two ways to name the one response appended name the same response. -/
theorem response_eq_of_append {s t : State} {r r' : Response} (h : t.responses = s.responses ++ [r])
    (h' : t.responses = s.responses ++ [r']) : r = r' := by
  simpa using h.symm.trans h'

/-- A step that gives a response has taken a command, and answered it `OK` or left nothing but one of three errors. -/
theorem step_response_cases {s t : State} {r : Response} (h : step s = .next t)
    (hr : t.responses = s.responses ++ [r]) :
    ∃ c rest, s.commands = c :: rest ∧ (r.status = .ok ∨
      (r.status = .configurationError ∨ r.status = .sequencingError ∨ r.status = .illegalCommand) ∧
        t = answered (s.taking rest) r.status []) := by
  cases hc : s.commands with
  | nil =>
    cases (step_of_no_command hc).symm.trans h
    simp at hr
  | cons c rest =>
    refine ⟨c, rest, rfl, ?_⟩
    cases hd : decode c with
    | error e =>
      cases (step_of_decode_error hc hd).symm.trans h
      obtain rfl : r = ⟨.illegalCommand, []⟩ := response_eq_of_append hr rfl
      exact .inr ⟨.inr (.inr rfl), rfl⟩
    | ok i =>
      obtain ⟨t', st, out, hexec, -, hresp, hst⟩ := exec_cases i (s.taking rest)
      cases ((step_of_decode_ok hc hd).symm.trans h).symm.trans hexec
      obtain rfl : r = ⟨st, out⟩ := response_eq_of_append hr hresp
      obtain hok | ⟨hconf | hseq, ht⟩ := hst
      · exact .inl hok
      · exact .inr ⟨.inl hconf, ht⟩
      · exact .inr ⟨.inr (.inl hseq), ht⟩

/-- Settles O9: a status that is not `OK` leaves only the second case of `step_response_cases`. -/
theorem errorsChangeNothing : Obligations.ErrorsChangeNothing := by
  intro s t c rest r hs h hr hne
  obtain ⟨c', rest', hs', hok | ⟨-, ht⟩⟩ := step_response_cases h hr
  · exact absurd hok hne
  · cases hs.symm.trans hs'
    exact ht

/-- Settles O12: `step_response_cases` names every status a step can give. -/
theorem invariantViolationNeverGiven : Obligations.InvariantViolationNeverGiven := by
  intro s t r h hr hviolation
  obtain ⟨_, _, _, hst⟩ := step_response_cases h hr
  simp [hviolation] at hst

end Sys2Proof.Machine
end

section
/-! PROOFS. The rows of the table of sequencing errors as the refusals of the commands: the phases a row names are those
in which the command is not accepted (60_exceptions.md R272). -/

namespace Sys2Proof.Machine

open Sys2Proof.Reference

variable {s : State}

theorem sp_phaseCode_cases (b : SpBlock) : b.phaseCode = 0 ∨ b.phaseCode = 1 ∨ b.phaseCode = 2 := by
  cases b with
  | unconfigured => exact .inl rfl
  | configured r =>
    cases hp : r.phase with
    | absorbing => exact .inr (.inl ((sp_phaseCode_one r).mpr hp))
    | squeezing => exact .inr (.inr ((sp_phaseCode_two r).mpr hp))

/-- The sponge is not `ABSORBING` when it is `SQUEEZING` or `UNCONFIGURED` (10_state.md R26). -/
theorem sp_phaseCode_ne_one_iff (b : SpBlock) : b.phaseCode ≠ 1 ↔ b.phaseCode = 2 ∨ b.phaseCode = 0 := by
  obtain h | h | h := sp_phaseCode_cases b <;> simp [h]

/-- The sponge is not `SQUEEZING` when it is `ABSORBING` or `UNCONFIGURED` (10_state.md R26). -/
theorem sp_phaseCode_ne_two_iff (b : SpBlock) : b.phaseCode ≠ 2 ↔ b.phaseCode = 1 ∨ b.phaseCode = 0 := by
  obtain h | h | h := sp_phaseCode_cases b <;> simp [h]

/-- The controller is not open when it is `FINALIZED` or `UNCONFIGURED` (10_state.md R34). -/
theorem b2_phaseCode_closed_iff (b : B2Block) :
    ¬ (b.phaseCode = 1 ∨ b.phaseCode = 2) ↔ b.phaseCode = 3 ∨ b.phaseCode = 0 := by
  generalize b.phaseCode = code
  revert code
  decide

theorem sequencingCase_spAbsorb (msg : List Byte) : sequencingCase (.spAbsorb msg) s ↔ s.sp.phaseCode ≠ 1 :=
  (sp_phaseCode_ne_one_iff s.sp).symm

theorem sequencingCase_spFinalize : sequencingCase .spFinalize s ↔ s.sp.phaseCode ≠ 1 :=
  (sp_phaseCode_ne_one_iff s.sp).symm

theorem sequencingCase_spSqueeze (n : BitVec 24) :
    sequencingCase (.spSqueeze n) s ↔ ¬ (s.sp.phaseCode = 2 ∧ isShake s.sp = true) := by
  rw [not_and_or, or_comm, ← ne_eq s.sp.phaseCode, sp_phaseCode_ne_two_iff, Bool.not_eq_true]
  rfl

theorem sequencingCase_spDigest :
    sequencingCase .spDigest s ↔ ¬ (s.sp.phaseCode = 1 ∧ isShake s.sp = false) := by
  rw [not_and_or, ← ne_eq s.sp.phaseCode, sp_phaseCode_ne_one_iff, Bool.not_eq_false, or_assoc,
    or_comm (a := s.sp.phaseCode = 0)]
  rfl

theorem sequencingCase_b2cUpdate (msg : List Byte) :
    sequencingCase (.b2cUpdate msg) s ↔ ¬ (s.b2.phaseCode = 1 ∨ s.b2.phaseCode = 2) :=
  (b2_phaseCode_closed_iff s.b2).symm

theorem sequencingCase_b2cFinal :
    sequencingCase .b2cFinal s ↔ ¬ (s.b2.phaseCode = 1 ∨ s.b2.phaseCode = 2) :=
  (b2_phaseCode_closed_iff s.b2).symm

end Sys2Proof.Machine
end

section
/-! PROOFS. The status of every command is the one its error tables give it (60_exceptions.md R271, R272). -/

namespace Sys2Proof.Machine

open Sys2Proof.Reference

/-- The command is executed in `s` with one response, of status `st`. -/
def GivesStatus (i : Instr) (s : State) (st : Status) : Prop :=
  ∃ (t : State) (out : List Byte), exec i s = .next t ∧ t.responses = s.responses ++ [⟨st, out⟩]

theorem GivesStatus.status_eq {i : Instr} {s t : State} {st : Status} {r : Response} (hst : GivesStatus i s st)
    (h : exec i s = .next t) (hr : t.responses = s.responses ++ [r]) : r.status = st := by
  obtain ⟨t', out, hexec, hresp⟩ := hst
  cases hexec.symm.trans h
  exact congrArg Response.status (response_eq_of_append hr hresp)

/-- The command's status in `s` is each of the two errors exactly in the cases its table names. -/
def MeetsErrorTables (i : Instr) (s : State) : Prop :=
  ∃ st, GivesStatus i s st ∧ (st = .sequencingError ↔ sequencingCase i s) ∧
    (st = .configurationError ↔ configurationCase i)

variable {i : Instr} {s : State}

theorem meetsErrorTables_of_ok (hseq : ¬ sequencingCase i s) (hconf : ¬ configurationCase i)
    (h : GivesStatus i s .ok) : MeetsErrorTables i s :=
  ⟨.ok, h, iff_of_false nofun hseq, iff_of_false nofun hconf⟩

/-- A command without parameters to validate: refused in the cases of its row, accepted in the others. -/
theorem meetsErrorTables_of_phases {refused : Prop} (hconf : ¬ configurationCase i)
    (herr : refused → exec i s = .next (answered s .sequencingError [])) (hrow : sequencingCase i s ↔ refused)
    (hok : ¬ refused → GivesStatus i s .ok) : MeetsErrorTables i s := by
  by_cases h : refused
  · exact ⟨.sequencingError, ⟨_, [], herr h, rfl⟩, iff_of_true rfl (hrow.mpr h), iff_of_false nofun hconf⟩
  · exact meetsErrorTables_of_ok (mt hrow.mp h) hconf (hok h)

/-- A pure command is in neither table and never fails (20_memory.md R71). -/
theorem meetsErrorTables_of_isPure (hi : isPure i = true) (hseq : ¬ sequencingCase i s)
    (hconf : ¬ configurationCase i) : MeetsErrorTables i s := by
  obtain ⟨out, hexec⟩ := exec_ok_of_isPure hi
  exact meetsErrorTables_of_ok hseq hconf ⟨_, out, hexec s, rfl⟩

/-- A construction has no phase to check: it fails in validation or is accepted (60_exceptions.md R276). -/
theorem IsVariant.meetsErrorTables {w : Nat} {p : B2Params w} {block : B2Regs w → B2Block}
    {init : BitVec 7 → List Byte → List Byte → List Byte → Instr} (hv : IsVariant p block init) {dlen : BitVec 7}
    {key salt pers : List Byte} (hseq : ¬ sequencingCase (init dlen key salt pers) s) :
    MeetsErrorTables (init dlen key salt pers) s := by
  by_cases hp : validParams p dlen.toNat key.length salt.length pers.length = true
  · exact meetsErrorTables_of_ok hseq (mt hv.configurationCase_iff.mp (not_not.mpr hp))
      ⟨_, [], hv.exec_init s hp, rfl⟩
  · exact ⟨.configurationError, ⟨_, [], hv.exec_init_refused s hp, rfl⟩, iff_of_false nofun hseq,
      iff_of_true rfl (hv.configurationCase_iff.mpr hp)⟩

/-- By the row of each command: its table names the phases and variants that do not accept it. -/
theorem meetsErrorTables (i : Instr) (s : State) : MeetsErrorTables i s := by
  cases i with
  | kfPermute | b2bCompress | b2sCompress => exact meetsErrorTables_of_isPure rfl id id
  | rdreg reg => exact meetsErrorTables_of_ok id id ⟨_, _, exec_rdreg reg s, rfl⟩
  | spInit v => exact meetsErrorTables_of_ok id id ⟨_, [], exec_spInit v s, rfl⟩
  | spReset =>
    refine meetsErrorTables_of_phases id exec_spReset_refused .rfl fun h => ?_
    obtain ⟨r, hs⟩ := configured_of_phaseCode_ne_zero h
    exact ⟨_, [], exec_spReset hs, rfl⟩
  | spAbsorb msg =>
    refine meetsErrorTables_of_phases id (exec_spAbsorb_refused msg) (sequencingCase_spAbsorb msg) fun h => ?_
    obtain ⟨r, hs, hp⟩ := absorbing_of_phaseCode (not_not.mp h)
    exact ⟨_, [], exec_spAbsorb msg hs hp, rfl⟩
  | spFinalize =>
    refine meetsErrorTables_of_phases id exec_spFinalize_refused sequencingCase_spFinalize fun h => ?_
    obtain ⟨r, hs, hp⟩ := absorbing_of_phaseCode (not_not.mp h)
    exact ⟨_, [], exec_spFinalize hs hp, rfl⟩
  | spSqueeze n =>
    refine meetsErrorTables_of_phases id (exec_spSqueeze_refused n) (sequencingCase_spSqueeze n) fun h => ?_
    obtain ⟨hcode, hshake⟩ := not_not.mp h
    obtain ⟨r, hs, hp⟩ := squeezing_of_phaseCode hcode
    rw [hs, isShake_configured] at hshake
    exact ⟨_, _, exec_spSqueeze n hs hp hshake, rfl⟩
  | spDigest =>
    refine meetsErrorTables_of_phases id exec_spDigest_refused sequencingCase_spDigest fun h => ?_
    obtain ⟨hcode, hshake⟩ := not_not.mp h
    obtain ⟨r, hs, hp⟩ := absorbing_of_phaseCode hcode
    rw [hs, isShake_configured] at hshake
    obtain ⟨d, hd⟩ := dlen_of_not_xof hshake
    exact ⟨_, _, exec_spDigest hs hp hd, rfl⟩
  | b2bInit => exact IsVariant.blake2b.meetsErrorTables id
  | b2sInit => exact IsVariant.blake2s.meetsErrorTables id
  | b2cReset =>
    refine meetsErrorTables_of_phases id exec_b2cReset_refused .rfl fun h => ?_
    obtain hs | ⟨_, _, _, _, _, hv, hs⟩ := b2Block_cases s.b2
    · exact absurd (hs ▸ rfl) h
    · exact ⟨_, [], hv.exec_reset hs, rfl⟩
  | b2cUpdate msg =>
    refine meetsErrorTables_of_phases id (exec_b2cUpdate_refused msg) (sequencingCase_b2cUpdate msg) fun h => ?_
    obtain ⟨_, _, _, _, _, hv, hs, ho⟩ := exists_isVariant_of_open (not_not.mp h)
    exact ⟨_, [], hv.exec_update msg hs ho, rfl⟩
  | b2cFinal =>
    refine meetsErrorTables_of_phases id exec_b2cFinal_refused sequencingCase_b2cFinal fun h => ?_
    obtain ⟨_, _, _, _, _, hv, hs, ho⟩ := exists_isVariant_of_open (not_not.mp h)
    exact ⟨_, _, hv.exec_final hs ho, rfl⟩

/-- Settles O10: the response's status is the one `meetsErrorTables` speaks of. -/
theorem sequencingErrorExactly : Obligations.SequencingErrorExactly := by
  intro i s t r h hr
  obtain ⟨st, hst, hseq, -⟩ := meetsErrorTables i s
  rw [hst.status_eq h hr, hseq]

/-- Settles O11: the response's status is the one `meetsErrorTables` speaks of. -/
theorem configurationErrorExactly : Obligations.ConfigurationErrorExactly := by
  intro i s t r h hr
  obtain ⟨st, hst, -, hconf⟩ := meetsErrorTables i s
  rw [hst.status_eq h hr, hconf]

end Sys2Proof.Machine
end

section
/-! PROOFS. Waiting and reset (70_reset_and_hazards.md R300, R301), and a run of encoded commands as the commands
executed one after another (R309). -/

namespace Sys2Proof.Machine

open Sys2Proof.Reference

/-- Settles O6: it is the branch of `step` for an empty stream. -/
theorem stepWaitsWithoutCommand : Obligations.StepWaitsWithoutCommand :=
  fun _ hs => step_of_no_command hs

/-- Settles O19: the invariants ask nothing of an unconfigured block, and no response has been given. -/
theorem invariantAtReset : Obligations.InvariantAtReset := by
  have hresponses : ∀ r ∈ State.reset.responses, r.Inv := List.forall_mem_nil _
  exact ⟨trivial, trivial, hresponses⟩

/-- Settles O20: both blocks are in the constructor whose phase number is 0. -/
theorem resetLeavesBothUnconfigured : Obligations.ResetLeavesBothUnconfigured :=
  ⟨sp_phaseCode_unconfigured, b2_phaseCode_unconfigured, rfl, rfl⟩

/-- A run of one step more goes on from the state the step gives. -/
theorem run_succ_of_step {k : Nat} {s t : State} (h : step s = .next t) : core.run (k + 1) s = core.run k t := by
  have hcore : core.step s = .next t := h
  simp only [Host.Core.run, hcore]

/-- With its encoding next in the stream, a step executes a well-formed instruction (30_encoding.md R100, 20_memory.md
R75). -/
theorem step_of_encode {i : Instr} (hi : i.wellFormed = true) (s : State) (cs : List Command) :
    step (s.taking (encode i :: cs)) = exec i (s.taking cs) :=
  step_of_decode_ok (s := s.taking (encode i :: cs)) rfl (decodeOfEncode i hi)

/-- One next state serves for every stream: what a command does to the rest of the state does not depend on what the
host delivers later (log entry 2). -/
theorem exec_taking_uniform (i : Instr) (s : State) :
    ∃ t : State, ∀ cs : List Command, exec i (s.taking cs) = .next (t.taking cs) := by
  obtain ⟨t, _, _, hexec, -⟩ := exec_cases i s
  refine ⟨t, fun cs => ?_⟩
  obtain ⟨t', hexec', htaking⟩ := exec_taking i s cs
  cases hexec.symm.trans hexec'
  exact htaking

/-- Settles O8, by induction on the commands: the step on an encoding is the execution of its instruction, which leaves
the commands behind it in the stream to the rest of the run. -/
theorem runOfEncodedCommands : Obligations.RunOfEncodedCommands := by
  intro is s rest hwf
  show core.run is.length (s.taking (is.map encode ++ rest)) = execAll is (s.taking rest)
  induction is generalizing s with
  | nil => rfl
  | cons i is ih =>
    obtain ⟨hi, his⟩ := List.forall_mem_cons.mp hwf
    obtain ⟨t, ht⟩ := exec_taking_uniform i s
    have hstep : step (s.taking (encode i :: (is.map encode ++ rest))) = .next (t.taking (is.map encode ++ rest)) :=
      (step_of_encode hi s _).trans (ht _)
    have hexec : execAll (i :: is) (s.taking rest) = execAll is (t.taking rest) := execAll_cons (ht rest)
    exact (run_succ_of_step hstep).trans ((ih t his).trans hexec.symm)

end Sys2Proof.Machine
end
